-- ==== Sys2Proof/Word.lean ====
section
/-! DEFINITION. The word types of the BitFramer codec block: a BUF byte, a 16-bit geometry field and a 32-bit register
word (spec 00_scope.md R7, 10_state.md R23). -/

namespace Sys2Proof

/-- One byte of BUF (20_memory.md R60). Bit 0 is the least significant bit (R7). -/
abbrev Byte := BitVec 8

/-- A 16-bit geometry field (10_state.md R26 to R28). -/
abbrev Half := BitVec 16

/-- A 32-bit register word or command word (10_state.md R23, 30_encoding.md R97). -/
abbrev Word := BitVec 32

end Sys2Proof
end

