-- ==== Sys2Proof/Syntax.lean ====
section
/-! DEFINITION. The eight commands of the block, one constructor per row of spec/opcode_table.json
(30_encoding.md R92). A command word carries no operand (R96), so no constructor has an argument. -/

namespace Sys2Proof

/-- The commands (30_encoding.md R92). Their operands are the latched registers (R96). -/
inductive Instr where
  /-- NOP, 40_command_lifecycle.md R124. -/
  | nop
  /-- BFRAME, 41_bitframing.md R140. -/
  | bframe
  /-- BDEFRAME, 41_bitframing.md R143. -/
  | bdeframe
  /-- BDEFRAME.S, 41_bitframing.md R146. -/
  | bdeframeS
  /-- RENDER, 42_raster.md R160. -/
  | render
  /-- EXTRACT, 42_raster.md R165. -/
  | extract
  /-- PFRAME, 43_payload.md R180. -/
  | pframe
  /-- PSPLIT, 43_payload.md R184. -/
  | psplit
  deriving DecidableEq, Repr

end Sys2Proof
end

