-- ==== Sys2Proof/WellFormed.lean ====
section
/-! DEFINITION. Well-formedness: which command-word fields select a command (30_encoding.md R90, R93 to R95), and
that every command itself is well formed, since none has an operand (R96). -/

namespace Sys2Proof

/-- The three fields of a command word (30_encoding.md R90). -/
structure CommandFields where
  /-- bits [3:0] -/
  op : BitVec 4
  /-- bit [4] -/
  strict : Bool
  /-- bits [31:5] -/
  rsv : BitVec 27
  deriving DecidableEq, Repr

/-- R95: RSV must be 0. -/
def CommandFields.rsvClear (f : CommandFields) : Bool := f.rsv == 0#27

/-- R94: OP values 0x7 to 0xF are reserved. -/
def CommandFields.opAssigned (f : CommandFields) : Bool := decide (f.op.toNat ≤ 6)

/-- R93: S may be 1 only with OP = 0x2. -/
def CommandFields.strictAllowed (f : CommandFields) : Bool := !f.strict || f.op == 2#4

/-- The fields of one of the eight legal words (R92). -/
def CommandFields.wellFormed (f : CommandFields) : Bool := f.rsvClear && f.opAssigned && f.strictAllowed

/-- A command has no operand that could be out of its encoding's range (R96), so each one is well formed. -/
def Instr.wellFormed : Instr → Bool
  | .nop => true
  | .bframe => true
  | .bdeframe => true
  | .bdeframeS => true
  | .render => true
  | .extract => true
  | .pframe => true
  | .psplit => true

end Sys2Proof
end

