-- ==== Sys2Proof/Decode.lean ====
section
/-! DEFINITION. Decoding of a 32-bit command word, total and rejecting by name (30_encoding.md R91), and the encoder
written from the same table (R92). -/

namespace Sys2Proof

/-- Why a word is `Illegal` (30_encoding.md R91, 60_exceptions.md R202). Each cause ends the command with ILLEGAL_CMD. -/
inductive DecodeError where
  /-- RSV, bits [31:5], is not zero (R95). -/
  | reservedBits
  /-- OP is one of 0x7 to 0xF (R94). -/
  | reservedOp
  /-- S = 1 with an OP other than 0x2 (R93). -/
  | strictNotAllowed
  deriving DecidableEq, Repr

/-- The fields OP, S and RSV of a command word (30_encoding.md R90). -/
def fieldsOf (w : Word) : CommandFields :=
  { op := w.extractLsb' 0 4, strict := w.getLsbD 4, rsv := w.extractLsb' 5 27 }

/-- The word made of the fields: RSV in [31:5], S in [4], OP in [3:0] (30_encoding.md R90). -/
def wordOfFields (f : CommandFields) : Word :=
  (f.rsv.setWidth 32 <<< 5) ||| ((BitVec.ofBool f.strict).setWidth 32 <<< 4) ||| f.op.setWidth 32

/-- The match of 30_encoding.md R91 on (OP, S), for a word whose RSV is zero. -/
def decodeOp (op : BitVec 4) (strict : Bool) : Except DecodeError Instr :=
  match op.toNat, strict with
  | 0, false => .ok .nop
  | 1, false => .ok .bframe
  | 2, false => .ok .bdeframe
  | 2, true => .ok .bdeframeS
  | 3, false => .ok .render
  | 4, false => .ok .extract
  | 5, false => .ok .pframe
  | 6, false => .ok .psplit
  | n, _ => if 7 ≤ n then .error .reservedOp else .error .strictNotAllowed

/-- Decode (30_encoding.md R91): total on every 32-bit word. -/
def decode (w : Word) : Except DecodeError Instr :=
  let f := fieldsOf w
  if f.rsv ≠ 0#27 then .error .reservedBits else decodeOp f.op f.strict

/-- The fields of each command's word (30_encoding.md R92). -/
def encodeFields : Instr → CommandFields
  | .nop => { op := 0x0#4, strict := false, rsv := 0#27 }
  | .bframe => { op := 0x1#4, strict := false, rsv := 0#27 }
  | .bdeframe => { op := 0x2#4, strict := false, rsv := 0#27 }
  | .bdeframeS => { op := 0x2#4, strict := true, rsv := 0#27 }
  | .render => { op := 0x3#4, strict := false, rsv := 0#27 }
  | .extract => { op := 0x4#4, strict := false, rsv := 0#27 }
  | .pframe => { op := 0x5#4, strict := false, rsv := 0#27 }
  | .psplit => { op := 0x6#4, strict := false, rsv := 0#27 }

/-- The command word of a command (30_encoding.md R92). -/
def encode (i : Instr) : Word := wordOfFields (encodeFields i)

/-- The command that the decoder reads from the `nbits` low bits of `w` (bits above are 0). A command is exactly one
32-bit word (30_encoding.md R97), so a value that needs more than 32 bits is no command. -/
def decodeTableWord (nbits w : Nat) : Option Instr :=
  let v := w % 2 ^ nbits
  if v < 2 ^ 32 then (decode (BitVec.ofNat 32 v)).toOption else none

end Sys2Proof
end

