-- ==== Sys2Proof/Config.lean ====
section
/-! DEFINITION. What an implementation or a platform fixes (00_scope.md R5), and the free values: constants without a
body, of which nothing can be proved. -/

namespace Sys2Proof

/-- The OPEN parameters of a block (00_scope.md R5, 20_memory.md R70). They stand in State (`State.params`), no step
changes them, and the statements hold for every legal value. -/
structure Params where
  /-- BUF_BYTES, the size of BUF in bytes -/
  bufBytes : Nat
  /-- REG_BASE, the host address of register offset 0x00 -/
  regBase : Nat
  /-- BUF_BASE, the host address of BUF address 0 -/
  bufBase : Nat
  deriving DecidableEq, Repr

/-- The legal values: 1 <= BUF_BYTES <= 2^28 and REG_BASE aligned to 256 bytes (00_scope.md R5), the two windows
disjoint (20_memory.md R70). -/
abbrev Params.Legal (p : Params) : Prop :=
  1 ≤ p.bufBytes ∧ p.bufBytes ≤ 2 ^ 28 ∧ p.regBase % 256 = 0 ∧
    (p.regBase + 256 ≤ p.bufBase ∨ p.bufBase + p.bufBytes ≤ p.regBase)

/-- DESIGN CHOICE, unsafe (notes/assumptions/1.md): the parameters that `State.reset` takes; 256 is the BUF_BYTES of
the spec's own vectors (95_test_vectors.md). -/
def Config.params : Params := { bufBytes := 256, regBase := 0x10000, bufBase := 0x20000 }

/-- DESIGN CHOICE, safe (notes/assumptions/6.md): the `n`-th byte drawn by a reset that cuts a command short, a free
value (70_reset_and_hazards.md R231). -/
opaque Config.freeByte : Nat → Byte

/-- DESIGN CHOICE, safe (notes/assumptions/5.md): what a host variable that nothing assigned reads as, a free value
(30_encoding.md R98 is silent). -/
opaque Config.unsetVar : Nat → Word

end Sys2Proof
end

