-- ==== Sys2Proof/Machine/State.lean ====
section
/-! DEFINITION. The state of the machine as plain data: the block's registers, latch, BUF and fault record
(10_state.md R22), its parameters, and the host agent with its program (30_encoding.md R98). -/

namespace Sys2Proof.Machine

/-- The error codes of STATUS.ERRCODE (60_exceptions.md R201). Codes 7 to 15 are never raised, so they have no
constructor (notes/assumptions/14.md). -/
inductive ErrCode where
  | none
  | illegalCmd
  | badConfig
  | range
  | overlap
  | sentinel
  | framing
  deriving DecidableEq, Repr

/-- The fields of STATUS (10_state.md R32). The reserved bits read 0 and ignore writes, so they hold no state. -/
structure Status where
  busy : Bool
  done : Bool
  err : Bool
  mism : Bool
  overrun : Bool
  errCode : ErrCode
  deriving DecidableEq, Repr

/-- The programmer-visible registers that hold state (10_state.md R23). ID, BUFSZ, ECB and BPF are computed by the
register read (`readReg`). -/
structure Regs where
  frameW : Half
  frameH : Half
  blockSize : Half
  cmd : Word
  status : Status
  srcAddr : Word
  srcLen : Word
  src2Addr : Word
  src2Len : Word
  dstAddr : Word
  dst2Addr : Word
  frameIndex : Word
  resultLen : Word
  resultAux : Word
  firstMism : Word
  deriving DecidableEq, Repr

/-- The latched register set (10_state.md R50). -/
structure Latch where
  cmd : Word
  frameW : Half
  frameH : Half
  blockSize : Half
  srcAddr : Word
  srcLen : Word
  src2Addr : Word
  src2Len : Word
  dstAddr : Word
  dst2Addr : Word
  frameIndex : Word
  deriving DecidableEq, Repr

/-- BUF: (address, byte) pairs with strictly rising addresses, none equal to what an unlisted address reads as. -/
abbrev Memory := List Host.Cell

/-- The hazards of the host that the block's state records (10_state.md R22, 70_reset_and_hazards.md R240). -/
inductive HostFault where
  /-- A host BUF access while STATUS.BUSY = 1. -/
  | bufWhileBusy
  deriving DecidableEq, Repr

/-- The width of a host bus access (20_memory.md R67). -/
inductive Width where
  | w8
  | w16
  | w32
  deriving DecidableEq, Repr

/-- A value that a host statement writes: a number, or a host variable (95_test_vectors.md P3 writes `WR SRC_LEN, n`). -/
inductive Operand where
  | lit (v : Word)
  | var (t : Nat)
  deriving DecidableEq, Repr

/-- The statements of a host program (30_encoding.md R98). Host variables and labels are numbered. The last two are
bus accesses at any address and width, which R98's notation cannot write but 20_memory.md R67 speaks of
(notes/assumptions/11.md). DESIGN CHOICE, safe: R98 does not say whether the address of SB and LB may be a host variable, as
a written value may; here it is a constant, and only a written value is an `Operand` (notes/assumptions/19.md). -/
inductive Stmt where
  /-- `WR <REG>, <v>`, the register by its offset -/
  | wr (off : Nat) (v : Operand)
  /-- `RD <REG> -> t` -/
  | rd (off : Nat) (t : Nat)
  /-- `SB <a>, <v>` -/
  | sb (a : Nat) (v : Operand)
  /-- `LB <a> -> t` -/
  | lb (a : Nat) (t : Nat)
  /-- `BSET t, n, <label>` -/
  | bset (t n l : Nat)
  /-- `J <label>` -/
  | jump (l : Nat)
  /-- `<label>:` -/
  | label (l : Nat)
  /-- a bus write of the given width at a host address -/
  | writeAt (w : Width) (addr : Nat) (v : Operand)
  /-- a bus read of the given width at a host address -/
  | readAt (w : Width) (addr : Nat) (t : Nat)
  deriving DecidableEq, Repr

/-- The host agent (10_state.md R22): its program, the index of its next statement, its variables (30_encoding.md
R98). Not block state. -/
structure HostAgent where
  prog : List Stmt
  pos : Nat
  vars : List (Nat × Word)
  deriving DecidableEq, Repr

/-- Who may take a step (10_state.md R22; reset: 70_reset_and_hazards.md R231). DESIGN CHOICE, unsafe for other bus
masters and hangs, which are left out (notes/assumptions/17.md). -/
inductive Agent where
  | host
  | engine
  | reset
  deriving DecidableEq, Repr

/-- The machine: the spec's tuple regs, latch, buf, fault (10_state.md R22), the block's parameters (00_scope.md R5),
the host agent (30_encoding.md R98), and the model's own `sched` (the agents that move next, notes/assumptions/3.md)
and `draws` (how many free bytes were drawn, notes/assumptions/6.md). -/
structure State where
  params : Params
  regs : Regs
  latch : Option Latch
  buf : Memory
  fault : Option HostFault
  host : HostAgent
  sched : List Agent
  draws : Nat
  deriving DecidableEq, Repr

/-- Why the machine stops. -/
inductive Fault where
  /-- Raised by a turn of the host after `State.fault` has recorded a hazard: the host is stopped there and has no
  further step (70_reset_and_hazards.md R240). Safe: no claim can rest on such a run. -/
  | hostStopped (f : HostFault)
  deriving DecidableEq, Repr

/-- Why a step does not exist. -/
inductive Refusal where
  /-- Raised by `exec`'s arm of an instruction that has no meaning yet; no arm does. Safe. -/
  | notModelled (mnemonic : String)
  /-- Raised by `exec` when no command is latched: the engine has a step exactly when the latch is present
  (40_command_lifecycle.md R115). `step` never raises it. Safe. -/
  | noCommandLatched
  /-- Raised by a host access of 8 or 16 bits inside the register window (20_memory.md R67). Safe. -/
  | registerAccessWidth
  /-- Raised by a host register access at an offset that is no multiple of 4 (20_memory.md R67). Safe. -/
  | registerAccessMisaligned
  /-- Raised by a host access of 16 or 32 bits inside the BUF window (20_memory.md R67). Safe. -/
  | bufAccessWidth
  /-- Raised by a host access outside both windows (20_memory.md R62, R67). Safe. -/
  | outsideWindows
  /-- Raised by a host branch to a label that the program does not hold (30_encoding.md R98 gives it no meaning).
  Safe. -/
  | unknownLabel (l : Nat)
  deriving DecidableEq, Repr

/-- The reset column of 10_state.md R23 and R32 (70_reset_and_hazards.md R230). -/
def Regs.reset : Regs :=
  { frameW := 0, frameH := 0, blockSize := 0, cmd := 0,
    status := { busy := false, done := false, err := false, mism := false, overrun := false, errCode := .none },
    srcAddr := 0, srcLen := 0, src2Addr := 0, src2Len := 0, dstAddr := 0, dst2Addr := 0, frameIndex := 0,
    resultLen := 0, resultAux := 0, firstMism := 0xFFFFFFFF }

/-- The launch state of 70_reset_and_hazards.md R230 for given parameters and a given initial BUF, the free parameter
of the launch (20_memory.md R63), with a host that has no program (notes/assumptions/4.md). -/
def State.launch (p : Params) (buf : Memory) : State :=
  { params := p, regs := Regs.reset, latch := none, buf := buf, fault := none,
    host := { prog := [], pos := 0, vars := [] }, sched := [], draws := 0 }

/-- The machine right after power-on reset (70_reset_and_hazards.md R230), with the parameters of notes/assumptions/1.md
and a BUF of zeros (notes/assumptions/2.md). DESIGN CHOICE, unsafe: both are OPEN in the spec; `State.launch` takes any. -/
def State.reset : State := State.launch Config.params []

end Sys2Proof.Machine
end

