-- ==== Sys2Proof/Machine/Flags.lean ====
section
/-! DEFINITION. Every flag computation: the STATUS word (10_state.md R32), what issue, complete and fail do to the
flags (40_command_lifecycle.md R111, R117, R118), the check byte and the mismatch flag (00_scope.md R10,
41_bitframing.md R146). -/

namespace Sys2Proof.Machine

/-- The numbers of the error codes (60_exceptions.md R201). -/
def ErrCode.code : ErrCode → BitVec 4
  | .none => 0
  | .illegalCmd => 1
  | .badConfig => 2
  | .range => 3
  | .overlap => 4
  | .sentinel => 5
  | .framing => 6

/-- The word a read of STATUS returns (10_state.md R32): ERRCODE in [11:8], OVERRUN 4, MISM 3, ERR 2, DONE 1, BUSY 0,
reserved bits 0. -/
def Status.toWord (st : Status) : Word :=
  (st.errCode.code.setWidth 32 <<< 8) ||| ((BitVec.ofBool st.overrun).setWidth 32 <<< 4) |||
    ((BitVec.ofBool st.mism).setWidth 32 <<< 3) ||| ((BitVec.ofBool st.err).setWidth 32 <<< 2) |||
    ((BitVec.ofBool st.done).setWidth 32 <<< 1) ||| (BitVec.ofBool st.busy).setWidth 32

/-- The flags after an accepted CMD write (40_command_lifecycle.md R111): OVERRUN is unchanged. -/
def Status.issued (st : Status) : Status :=
  { busy := true, done := false, err := false, mism := false, overrun := st.overrun, errCode := .none }

/-- The flags after `complete` (40_command_lifecycle.md R117): OVERRUN is unchanged (10_state.md R37). -/
def Status.completed (st : Status) (mism : Bool) : Status :=
  { busy := false, done := true, err := false, mism := mism, overrun := st.overrun, errCode := .none }

/-- The flags after `fail` (40_command_lifecycle.md R118): OVERRUN is unchanged (10_state.md R37). -/
def Status.failed (st : Status) (code : ErrCode) : Status :=
  { busy := false, done := true, err := true, mism := false, overrun := st.overrun, errCode := code }

/-- A CMD write while BUSY = 1 (10_state.md R31, R37). -/
def Status.overran (st : Status) : Status := { st with overrun := true }

/-- A host write of `w` to STATUS: OVERRUN is write-1-to-clear, every other bit ignores the write (10_state.md R32,
R37). -/
def Status.hostWrite (st : Status) (w : Word) : Status := { st with overrun := st.overrun && !w.getLsbD 4 }

/-- popcount(v), the number of 1 bits of a byte (00_scope.md R10). -/
def popcount (v : Byte) : Nat := ((List.range 8).map fun t => (v.getLsbD t).toNat).sum

/-- The check byte of a byte: popcount mod 256 (41_bitframing.md R140). -/
def checkByte (v : Byte) : Byte := BitVec.ofNat 8 (popcount v % 256)

/-- m_j, the ChecksumMismatch of a byte and the check byte that came with it (41_bitframing.md R146). -/
def mismatch (byte check : Byte) : Bool := check != checkByte byte

end Sys2Proof.Machine
end

