-- ==== Sys2Proof/Machine/Memory.lean ====
section
/-! DEFINITION. BUF: reading and writing one byte, several cells, one bit; the canonical form. -/

namespace Sys2Proof.Machine

/-- What a BUF address that no entry lists reads as. DESIGN CHOICE, unsafe for statements about `State.reset` alone
(notes/assumptions/2.md): the launch contents are free (20_memory.md R63), and any of them is a list of entries. -/
def Memory.unlisted : Byte := 0#8

/-- MemRead(a, 1) (00_scope.md R12, 20_memory.md R62). -/
def Memory.read : Memory → Nat → Byte
  | [], _ => Memory.unlisted
  | (b, v) :: m, a => if a = b then v else Memory.read m a

/-- MemWrite(a, 1, v) (00_scope.md R12, 20_memory.md R62), keeping the canonical form. -/
def Memory.write : Memory → Nat → Byte → Memory
  | [], a, v => if v = Memory.unlisted then [] else [(a, v)]
  | (b, u) :: m, a, v =>
    if a < b then (if v = Memory.unlisted then (b, u) :: m else (a, v) :: (b, u) :: m)
    else if a = b then (if v = Memory.unlisted then m else (a, v) :: m)
    else (b, u) :: Memory.write m a v

/-- The writes of one command, applied to BUF (40_command_lifecycle.md R115). -/
def Memory.writeAll (m : Memory) (writes : List Host.Cell) : Memory :=
  writes.foldl (fun m c => Memory.write m c.1 c.2) m

/-- The canonical form: addresses strictly rising, no entry equal to what an unlisted address reads as. -/
abbrev Memory.wf (m : Memory) : Prop :=
  List.Pairwise (fun c d => c.1 < d.1) m ∧ ∀ c ∈ m, c.2 ≠ Memory.unlisted

/-- Every entry lies in a BUF of `n` bytes (20_memory.md R60). -/
abbrev Memory.within (n : Nat) (m : Memory) : Prop := ∀ c ∈ m, c.1 < n

/-- BitRead(A, k): bit 7 - (k mod 8) of byte A + k / 8 (20_memory.md R64). -/
def bitRead (m : Memory) (A k : Nat) : Bool := (Memory.read m (A + k / 8)).getLsbD (7 - k % 8)

/-- One byte with bit `p` replaced by `b` (20_memory.md R65). -/
def setBit (v : Byte) (p : Nat) (b : Bool) : Byte :=
  (v &&& ~~~(1#8 <<< p)) ||| ((BitVec.ofBool b).setWidth 8 <<< p)

/-- BitWrite(A, k, b): a read-modify-write of byte A + k / 8 (20_memory.md R65). -/
def bitWrite (m : Memory) (A k : Nat) (b : Bool) : Memory :=
  Memory.write m (A + k / 8) (setBit (Memory.read m (A + k / 8)) (7 - k % 8) b)

end Sys2Proof.Machine
end

