-- ==== Sys2Proof/Machine/Operands.lean ====
section
/-! DEFINITION. The operand forms: geometry (40_command_lifecycle.md R119), operand ranges and their checks (R120,
R121), byte strings, bit strings and frames (R123, 20_memory.md R64, R79). Arithmetic is on unbounded naturals
(00_scope.md R11). -/

namespace Sys2Proof.Machine

/-- GeometryLegal(W, H, BS) (40_command_lifecycle.md R119). -/
def geometryLegal (w h bs : Nat) : Bool :=
  decide (1 ≤ bs) && decide (1 ≤ w) && decide (1 ≤ h) && decide (w % bs = 0) && decide (h % bs = 0)

/-- bpf = (W / BS) × (H / BS) (40_command_lifecycle.md R119). -/
def bitsPerFrame (w h bs : Nat) : Nat := (w / bs) * (h / bs)

/-- The latched W (40_command_lifecycle.md R112, R119). -/
def Latch.width (L : Latch) : Nat := L.frameW.toNat

/-- The latched H. -/
def Latch.height (L : Latch) : Nat := L.frameH.toNat

/-- The latched BS. -/
def Latch.block (L : Latch) : Nat := L.blockSize.toNat

/-- bpf of the latched geometry. -/
def Latch.bpf (L : Latch) : Nat := bitsPerFrame L.width L.height L.block

/-- GeometryLegal of the latched geometry. -/
def Latch.geometryOk (L : Latch) : Bool := geometryLegal L.width L.height L.block

/-- ceil(a / b) of 00_scope.md R11. -/
def ceilDiv (a b : Nat) : Nat := (a + b - 1) / b

/-- An operand range: start address and length in bytes, unbounded (40_command_lifecycle.md R120). -/
structure BufRange where
  start : Nat
  len : Nat
  deriving DecidableEq, Repr

/-- InBuf(A, n) = A + n <= BUF_BYTES (40_command_lifecycle.md R120). -/
def BufRange.inBuf (r : BufRange) (bufBytes : Nat) : Bool := decide (r.start + r.len ≤ bufBytes)

/-- Overlap (40_command_lifecycle.md R121): ranges of zero length overlap nothing. -/
def BufRange.overlaps (r q : BufRange) : Bool :=
  decide (0 < r.len) && decide (0 < q.len) && decide (r.start < q.start + q.len) && decide (q.start < r.start + r.len)

/-- The address lies in the range. -/
def BufRange.covers (r : BufRange) (a : Nat) : Bool := decide (r.start ≤ a) && decide (a < r.start + r.len)

/-- One row of the range table of 40_command_lifecycle.md R120. -/
structure OperandRanges where
  src : Option BufRange
  src2 : Option BufRange
  dst : Option BufRange
  dst2 : Option BufRange
  deriving DecidableEq, Repr

/-- The ranges in the order in which they are checked: SRC, SRC2, DST, DST2 (R120). -/
def OperandRanges.inOrder (o : OperandRanges) : List BufRange :=
  o.src.toList ++ o.src2.toList ++ o.dst.toList ++ o.dst2.toList

/-- The source ranges. -/
def OperandRanges.sources (o : OperandRanges) : List BufRange := o.src.toList ++ o.src2.toList

/-- The destination ranges. -/
def OperandRanges.dests (o : OperandRanges) : List BufRange := o.dst.toList ++ o.dst2.toList

/-- Every range is in BUF (R120). -/
def OperandRanges.allInBuf (o : OperandRanges) (bufBytes : Nat) : Bool := o.inOrder.all fun r => r.inBuf bufBytes

/-- The overlap check (R121): a destination overlaps a source, or the two destinations overlap. -/
def OperandRanges.overlapping (o : OperandRanges) : Bool :=
  (o.dests.any fun d => o.sources.any fun r => d.overlaps r) ||
    (o.dst.toList.any fun d => o.dst2.toList.any fun e => d.overlaps e)

/-- The first BUF byte of EXTRACT's destination (R120): DST_ADDR + (i·bpf) / 8. -/
def Latch.extractStart (L : Latch) : Nat := L.dstAddr.toNat + (L.frameIndex.toNat * L.bpf) / 8

/-- How many BUF bytes EXTRACT's destination spans (R120): ceil((i+1)·bpf / 8) - (i·bpf) / 8. -/
def Latch.extractLen (L : Latch) : Nat :=
  ceilDiv ((L.frameIndex.toNat + 1) * L.bpf) 8 - (L.frameIndex.toNat * L.bpf) / 8

/-- The range table of 40_command_lifecycle.md R120. DEDUCED, unsafe: under an illegal geometry (needed by a reset
alone) R119's formulas stand, a division by 0 giving 0 (notes/assumptions/7.md). -/
def operandRanges (i : Instr) (L : Latch) : OperandRanges :=
  match i with
  | .nop => { src := none, src2 := none, dst := none, dst2 := none }
  | .bframe =>
    { src := some ⟨L.srcAddr.toNat, L.srcLen.toNat⟩, src2 := none,
      dst := some ⟨L.dstAddr.toNat, 2 * L.srcLen.toNat⟩, dst2 := none }
  | .bdeframe =>
    { src := some ⟨L.srcAddr.toNat, ceilDiv L.srcLen.toNat 8⟩, src2 := none,
      dst := some ⟨L.dstAddr.toNat, L.srcLen.toNat / 16⟩, dst2 := none }
  | .bdeframeS =>
    { src := some ⟨L.srcAddr.toNat, ceilDiv L.srcLen.toNat 8⟩, src2 := none,
      dst := some ⟨L.dstAddr.toNat, L.srcLen.toNat / 16⟩,
      dst2 := some ⟨L.dst2Addr.toNat, ceilDiv (L.srcLen.toNat / 16) 8⟩ }
  | .render =>
    { src := some ⟨L.srcAddr.toNat, ceilDiv L.srcLen.toNat 8⟩, src2 := none,
      dst := some ⟨L.dstAddr.toNat, L.width * L.height⟩, dst2 := none }
  | .extract =>
    { src := some ⟨L.srcAddr.toNat, L.width * L.height⟩, src2 := none,
      dst := some ⟨L.extractStart, L.extractLen⟩, dst2 := none }
  | .pframe =>
    { src := some ⟨L.srcAddr.toNat, L.srcLen.toNat⟩, src2 := some ⟨L.src2Addr.toNat, L.src2Len.toNat⟩,
      dst := some ⟨L.dstAddr.toNat, L.srcLen.toNat + 1 + L.src2Len.toNat⟩, dst2 := none }
  | .psplit => { src := some ⟨L.srcAddr.toNat, L.srcLen.toNat⟩, src2 := none, dst := none, dst2 := none }

/-- The commands that the geometry check applies to (R119, R122). -/
def usesGeometry : Instr → Bool
  | .nop => false
  | .bframe => false
  | .bdeframe => false
  | .bdeframeS => false
  | .render => true
  | .extract => true
  | .pframe => false
  | .psplit => false

/-- binary8(v): index 0 is bit 7 (00_scope.md R9). -/
def binary8 (v : Byte) : List Bool := (List.range 8).map fun t => v.getLsbD (7 - t)

/-- The value of a string of bits, most significant bit first, as a byte (41_bitframing.md R143). -/
def byteOfBits (bits : List Bool) : Byte := BitVec.ofNat 8 (bits.foldl (fun acc b => 2 * acc + b.toNat) 0)

/-- Byte `q` of a bit string stored from a byte boundary (20_memory.md R64); places past the string's end hold 0. -/
def packedByte (s : List Bool) (q : Nat) : Byte :=
  byteOfBits ((List.range 8).map fun t => s.getD (8 * q + t) false)

/-- The cells that store a bit string at BUF address `A`: ceil(len / 8) bytes (20_memory.md R64). -/
def storeBits (A : Nat) (s : List Bool) : List Host.Cell :=
  (List.range (ceilDiv s.length 8)).map fun q => (A + q, packedByte s q)

/-- The bits `[k, k + n)` of the bit string stored at `A` (20_memory.md R64). -/
def readBits (m : Memory) (A k n : Nat) : List Bool := (List.range n).map fun t => bitRead m A (k + t)

/-- The cells that copy the byte string `(A, n)` to `D` (40_command_lifecycle.md R123). -/
def copyBytes (m : Memory) (A n D : Nat) : List Host.Cell :=
  (List.range n).map fun j => (D + j, Memory.read m (A + j))

/-- The address of pixel (x, y) of a frame of width `W` at `F` (20_memory.md R79). -/
def pixelAddr (F W x y : Nat) : Nat := F + y * W + x

end Sys2Proof.Machine
end

