-- ==== Sys2Proof/Machine/Ops.lean ====
section
/-! DEFINITION. The operations the commands and the host share: reading and writing a register (10_state.md R23),
issuing a command (40_command_lifecycle.md R111), completing one with success or with an error (R117, R118: this is
the block's whole exception entry, 60_exceptions.md R200, R211), the common checks (R122), and reset during a run
(70_reset_and_hazards.md R231). There is no return from an error (60_exceptions.md R212): the next accepted CMD write
clears it. -/

namespace Sys2Proof.Machine

/-- The registers of the map (10_state.md R23). -/
inductive RegName where
  | id | bufsz | frameW | frameH | blockSize | ecb | bpf | cmd | status | srcAddr | srcLen | src2Addr | src2Len
  | dstAddr | dst2Addr | frameIndex | resultLen | resultAux | firstMism
  deriving DecidableEq, Repr

/-- The offset column of 10_state.md R23. -/
def regOffset : RegName → Nat
  | .id => 0x00
  | .bufsz => 0x04
  | .frameW => 0x08
  | .frameH => 0x0C
  | .blockSize => 0x10
  | .ecb => 0x14
  | .bpf => 0x18
  | .cmd => 0x1C
  | .status => 0x20
  | .srcAddr => 0x24
  | .srcLen => 0x28
  | .src2Addr => 0x2C
  | .src2Len => 0x30
  | .dstAddr => 0x34
  | .dst2Addr => 0x38
  | .frameIndex => 0x3C
  | .resultLen => 0x40
  | .resultAux => 0x44
  | .firstMism => 0x48

/-- The register at an offset; `none` is reserved space, 0x4C to 0xFC (10_state.md R23, R49). -/
def regAt (off : Nat) : Option RegName :=
  match off with
  | 0x00 => some .id
  | 0x04 => some .bufsz
  | 0x08 => some .frameW
  | 0x0C => some .frameH
  | 0x10 => some .blockSize
  | 0x14 => some .ecb
  | 0x18 => some .bpf
  | 0x1C => some .cmd
  | 0x20 => some .status
  | 0x24 => some .srcAddr
  | 0x28 => some .srcLen
  | 0x2C => some .src2Addr
  | 0x30 => some .src2Len
  | 0x34 => some .dstAddr
  | 0x38 => some .dst2Addr
  | 0x3C => some .frameIndex
  | 0x40 => some .resultLen
  | 0x44 => some .resultAux
  | 0x48 => some .firstMism
  | _ => none

/-- FIRST_MISM's "none" (10_state.md R48). -/
def noMism : Word := 0xFFFFFFFF#32

/-- The constant ID register (10_state.md R24). -/
def idWord : Word := 0x49534701#32

/-- BPF of the current geometry registers, 0 if it is illegal (10_state.md R30). -/
def bpfOf (r : Regs) : Nat :=
  if geometryLegal r.frameW.toNat r.frameH.toNat r.blockSize.toNat then
    bitsPerFrame r.frameW.toNat r.frameH.toNat r.blockSize.toNat
  else 0

/-- The value a host read of a register returns (10_state.md R23 to R48). -/
def readReg (n : RegName) (s : State) : Word :=
  match n with
  | .id => idWord
  | .bufsz => BitVec.ofNat 32 s.params.bufBytes
  | .frameW => s.regs.frameW.setWidth 32
  | .frameH => s.regs.frameH.setWidth 32
  | .blockSize => s.regs.blockSize.setWidth 32
  | .ecb => 8#32
  | .bpf => BitVec.ofNat 32 (bpfOf s.regs)
  | .cmd => s.regs.cmd
  | .status => s.regs.status.toWord
  | .srcAddr => s.regs.srcAddr
  | .srcLen => s.regs.srcLen
  | .src2Addr => s.regs.src2Addr
  | .src2Len => s.regs.src2Len
  | .dstAddr => s.regs.dstAddr
  | .dst2Addr => s.regs.dst2Addr
  | .frameIndex => s.regs.frameIndex
  | .resultLen => s.regs.resultLen
  | .resultAux => s.regs.resultAux
  | .firstMism => s.regs.firstMism

/-- A host read of the slot at an offset: reserved space reads 0 (10_state.md R49). -/
def readSlot (off : Nat) (s : State) : Word :=
  match regAt off with
  | some n => readReg n s
  | none => 0

/-- The latch made of a command word and the current registers (40_command_lifecycle.md R112). -/
def latchOf (w : Word) (r : Regs) : Latch :=
  { cmd := w, frameW := r.frameW, frameH := r.frameH, blockSize := r.blockSize, srcAddr := r.srcAddr,
    srcLen := r.srcLen, src2Addr := r.src2Addr, src2Len := r.src2Len, dstAddr := r.dstAddr, dst2Addr := r.dst2Addr,
    frameIndex := r.frameIndex }

/-- An accepted CMD write: the read-back copy, then issue(w) (10_state.md R31, 40_command_lifecycle.md R111). -/
def acceptCmd (w : Word) (s : State) : State :=
  { s with latch := some (latchOf w s.regs), regs := { s.regs with cmd := w, status := s.regs.status.issued } }

/-- A host write of `w` to CMD (10_state.md R31). -/
def writeCmd (w : Word) (s : State) : State :=
  if s.regs.status.busy then { s with regs := { s.regs with status := s.regs.status.overran } } else acceptCmd w s

/-- A host write of `w` to a register (10_state.md R23, R26 to R45). RO registers ignore it. -/
def writeReg (n : RegName) (w : Word) (s : State) : State :=
  match n with
  | .id => s
  | .bufsz => s
  | .frameW => { s with regs := { s.regs with frameW := w.setWidth 16 } }
  | .frameH => { s with regs := { s.regs with frameH := w.setWidth 16 } }
  | .blockSize => { s with regs := { s.regs with blockSize := w.setWidth 16 } }
  | .ecb => s
  | .bpf => s
  | .cmd => writeCmd w s
  | .status => { s with regs := { s.regs with status := s.regs.status.hostWrite w } }
  | .srcAddr => { s with regs := { s.regs with srcAddr := w } }
  | .srcLen => { s with regs := { s.regs with srcLen := w } }
  | .src2Addr => { s with regs := { s.regs with src2Addr := w } }
  | .src2Len => { s with regs := { s.regs with src2Len := w } }
  | .dstAddr => { s with regs := { s.regs with dstAddr := w } }
  | .dst2Addr => { s with regs := { s.regs with dst2Addr := w } }
  | .frameIndex => { s with regs := { s.regs with frameIndex := w } }
  | .resultLen => s
  | .resultAux => s
  | .firstMism => s

/-- A host write to the slot at an offset: reserved space ignores it (10_state.md R49). -/
def writeSlot (off : Nat) (w : Word) (s : State) : State :=
  match regAt off with
  | some n => writeReg n w s
  | none => s

/-- The successful result of a command, `Ok(writes, len, aux, first, mism)` (00_scope.md R12). -/
structure CmdResult where
  writes : List Host.Cell
  len : Nat
  aux : Nat
  first : Word
  mism : Bool
  deriving DecidableEq, Repr

/-- complete(len, aux, first, mism), with the command's writes and the emptied latch (40_command_lifecycle.md R115,
R117). -/
def complete (r : CmdResult) (s : State) : State :=
  { s with
    buf := Memory.writeAll s.buf r.writes
    latch := none
    regs :=
      { s.regs with
        resultLen := BitVec.ofNat 32 r.len
        resultAux := BitVec.ofNat 32 r.aux
        firstMism := r.first
        status := s.regs.status.completed r.mism } }

/-- fail(code), with the emptied latch: BUF is unchanged (40_command_lifecycle.md R115, R116, R118). The block's
whole error entry (60_exceptions.md R200, R211). -/
def failWith (code : ErrCode) (s : State) : State :=
  { s with
    latch := none
    regs :=
      { s.regs with
        resultLen := 0
        resultAux := 0
        firstMism := noMism
        status := s.regs.status.failed code } }

/-- The checks every command makes before its body, in their order (40_command_lifecycle.md R122, 60_exceptions.md
R210); `none` when all pass. -/
def commonChecks (i : Instr) (L : Latch) (bufBytes : Nat) : Option ErrCode :=
  if usesGeometry i && !L.geometryOk then some .badConfig
  else if !(operandRanges i L).allInBuf bufBytes then some .range
  else if (operandRanges i L).overlapping then some .overlap
  else none

/-- Exec(L, buf) for a decoded command (40_command_lifecycle.md R122): the common checks, then the family body. -/
def execResult (i : Instr) (body : Latch → Memory → Except ErrCode CmdResult) (L : Latch) (bufBytes : Nat)
    (buf : Memory) : Except ErrCode CmdResult :=
  match commonChecks i L bufBytes with
  | some code => .error code
  | none => body L buf

/-- The end of the engine step (40_command_lifecycle.md R115): complete or fail. -/
def settle (r : Except ErrCode CmdResult) (s : State) : State :=
  match r with
  | .ok res => complete res s
  | .error code => failWith code s

/-- The engine step of a decoded command (40_command_lifecycle.md R115). It exists only when a command is latched;
without one it is refused (DEDUCED, safe: notes/assumptions/9.md). -/
def perform (i : Instr) (body : Latch → Memory → Except ErrCode CmdResult) (s : State) :
    Host.Outcome State Fault Refusal :=
  match s.latch with
  | none => .refused .noCommandLatched
  | some L => .next (settle (execResult i body L s.params.bufBytes s.buf) s)

/-- The addresses of a range that lie in BUF, in order (70_reset_and_hazards.md R231, "clipped to BUF"). -/
def clippedAddrs (bufBytes : Nat) (r : BufRange) : List Nat :=
  (List.range (min (r.start + r.len) bufBytes - r.start)).map fun j => r.start + j

/-- The BUF bytes that a command cut short by reset may have written (70_reset_and_hazards.md R231); an illegal
word has no destination. -/
def cutShortAddrs (cmd : Except DecodeError Instr) (L : Latch) (bufBytes : Nat) : List Nat :=
  match cmd with
  | .error _ => []
  | .ok i => (operandRanges i L).dests.flatMap (clippedAddrs bufBytes)

/-- Each address with a fresh free byte, a draw (70_reset_and_hazards.md R231). -/
def drawBytes (addrs : List Nat) (draws : Nat) : List Host.Cell :=
  addrs.mapIdx fun k a => (a, Config.freeByte (draws + k))

/-- A reset during a run (70_reset_and_hazards.md R231): the fault record and the host are unchanged. -/
def resetTurn (s : State) : State :=
  let addrs := match s.latch with
    | none => []
    | some L => cutShortAddrs (decode L.cmd) L s.params.bufBytes
  { s with
    regs := Regs.reset
    latch := none
    buf := Memory.writeAll s.buf (drawBytes addrs s.draws)
    draws := s.draws + addrs.length }

end Sys2Proof.Machine
end

