-- ==== Sys2Proof/Machine/BitFraming.lean ====
section
/-! DEFINITION. The bit framing family: BFRAME, BDEFRAME, BDEFRAME.S (41_bitframing.md). -/

namespace Sys2Proof.Machine

/-- The check-augmented stream of the payload `(S, n)`: binary8(b) ++ binary8(popcount(b)) per byte
(41_bitframing.md R140). -/
def frameStream (buf : Memory) (S n : Nat) : List Bool :=
  (List.range n).flatMap fun j =>
    binary8 (Memory.read buf (S + j)) ++ binary8 (checkByte (Memory.read buf (S + j)))

/-- Body(BFRAME) (41_bitframing.md R140). -/
def bodyBframe (L : Latch) (buf : Memory) : Except ErrCode CmdResult :=
  let n := L.srcLen.toNat
  .ok
    { writes := storeBits L.dstAddr.toNat (frameStream buf L.srcAddr.toNat n)
      len := 16 * n
      aux := 0
      first := noMism
      mism := false }

/-- BFRAME (41_bitframing.md R140). -/
def execBframe (s : State) : Host.Outcome State Fault Refusal := perform .bframe bodyBframe s

/-- byte_j, the value of bits [16j, 16j + 8) of the stream at `S` (41_bitframing.md R143). -/
def chunkByte (buf : Memory) (S j : Nat) : Byte := byteOfBits (readBits buf S (16 * j) 8)

/-- check_j, the value of bits [16j + 8, 16j + 16) of the stream at `S` (41_bitframing.md R146). -/
def chunkCheck (buf : Memory) (S j : Nat) : Byte := byteOfBits (readBits buf S (16 * j + 8) 8)

/-- Body(BDEFRAME) (41_bitframing.md R143): the check bits are discarded, a final short chunk is dropped (R144). -/
def bodyBdeframe (L : Latch) (buf : Memory) : Except ErrCode CmdResult :=
  let n := L.srcLen.toNat / 16
  .ok
    { writes := (List.range n).map fun j => (L.dstAddr.toNat + j, chunkByte buf L.srcAddr.toNat j)
      len := n
      aux := 0
      first := noMism
      mism := false }

/-- BDEFRAME (41_bitframing.md R143). -/
def execBdeframe (s : State) : Host.Outcome State Fault Refusal := perform .bdeframe bodyBdeframe s

/-- m_0, m_1, ..., m_(n-1): which bytes of the stream at `S` mismatch (41_bitframing.md R146). -/
def mismatches (buf : Memory) (S n : Nat) : List Bool :=
  (List.range n).map fun j => mismatch (chunkByte buf S j) (chunkCheck buf S j)

/-- The index of the first mismatch, or 0xFFFFFFFF (41_bitframing.md R146, 10_state.md R48). -/
def firstMismatch (ms : List Bool) : Word :=
  match ms.findIdx? id with
  | some j => BitVec.ofNat 32 j
  | none => noMism

/-- Body(BDEFRAME.S) (41_bitframing.md R146): the bitmap is stored most significant bit first, its padding 0. -/
def bodyBdeframeS (L : Latch) (buf : Memory) : Except ErrCode CmdResult :=
  let n := L.srcLen.toNat / 16
  let ms := mismatches buf L.srcAddr.toNat n
  .ok
    { writes := ((List.range n).map fun j => (L.dstAddr.toNat + j, chunkByte buf L.srcAddr.toNat j)) ++
        storeBits L.dst2Addr.toNat ms
      len := n
      aux := ms.count true
      first := firstMismatch ms
      mism := decide (0 < ms.count true) }

/-- BDEFRAME.S (41_bitframing.md R146). A mismatch is a result, not an error. -/
def execBdeframeS (s : State) : Host.Outcome State Fault Refusal := perform .bdeframeS bodyBdeframeS s

end Sys2Proof.Machine
end

