-- ==== Sys2Proof/Machine/Housekeeping.lean ====
section
/-! DEFINITION. NOP (40_command_lifecycle.md R124). -/

namespace Sys2Proof.Machine

/-- Body(NOP) (40_command_lifecycle.md R124): it reads nothing and writes no BUF byte. -/
def bodyNop (_L : Latch) (_buf : Memory) : Except ErrCode CmdResult :=
  .ok { writes := [], len := 0, aux := 0, first := noMism, mism := false }

/-- NOP (40_command_lifecycle.md R124). -/
def execNop (s : State) : Host.Outcome State Fault Refusal := perform .nop bodyNop s

end Sys2Proof.Machine
end

