-- ==== Sys2Proof/Machine/Payload.lean ====
section
/-! DEFINITION. The payload family: PFRAME and PSPLIT (43_payload.md). -/

namespace Sys2Proof.Machine

/-- The separator byte (43_payload.md R180). -/
def sentinelByte : Byte := 0x0A#8

/-- Some byte of the byte string `(A, n)` is 0x0A (43_payload.md R180, R181). -/
def holdsSentinel (buf : Memory) (A n : Nat) : Bool :=
  (List.range n).any fun j => Memory.read buf (A + j) == sentinelByte

/-- Body(PFRAME) (43_payload.md R180, R181). -/
def bodyPframe (L : Latch) (buf : Memory) : Except ErrCode CmdResult :=
  let m := L.srcLen.toNat
  let a := L.src2Len.toNat
  let d := L.dstAddr.toNat
  if holdsSentinel buf L.srcAddr.toNat m then .error .sentinel
  else
    .ok
      { writes := copyBytes buf L.srcAddr.toNat m d ++ [(d + m, sentinelByte)] ++
          copyBytes buf L.src2Addr.toNat a (d + m + 1)
        len := m + 1 + a
        aux := 0
        first := noMism
        mism := false }

/-- PFRAME (43_payload.md R180). -/
def execPframe (s : State) : Host.Outcome State Fault Refusal := perform .pframe bodyPframe s

/-- The least j in 0 .. n-1 whose byte is 0x0A (43_payload.md R184). -/
def separatorIndex (buf : Memory) (A n : Nat) : Option Nat :=
  (List.range n).find? fun j => Memory.read buf (A + j) == sentinelByte

/-- Body(PSPLIT) (43_payload.md R184). -/
def bodyPsplit (L : Latch) (buf : Memory) : Except ErrCode CmdResult :=
  let n := L.srcLen.toNat
  match separatorIndex buf L.srcAddr.toNat n with
  | none => .error .framing
  | some k => .ok { writes := [], len := k, aux := n - k - 1, first := noMism, mism := false }

/-- PSPLIT (43_payload.md R184). -/
def execPsplit (s : State) : Host.Outcome State Fault Refusal := perform .psplit bodyPsplit s

end Sys2Proof.Machine
end

