-- ==== Sys2Proof/Machine/Raster.lean ====
section
/-! DEFINITION. The raster family: RENDER and EXTRACT (42_raster.md). -/

namespace Sys2Proof.Machine

/-- sbit(k): bit `k` of the source stream, 0 past its end (42_raster.md R160, R161). -/
def streamBit (L : Latch) (buf : Memory) (k : Nat) : Bool :=
  if k < L.srcLen.toNat then bitRead buf L.srcAddr.toNat k else false

/-- The row-major index, within the frame, of the block that holds pixel (x, y) (42_raster.md R160). -/
def blockIndex (L : Latch) (x y : Nat) : Nat := (y / L.block) * (L.width / L.block) + x / L.block

/-- The pixel that shows a bit: 255 × bit (42_raster.md R160). -/
def pixelOf (b : Bool) : Byte := if b then 255#8 else 0#8

/-- Body(RENDER) (42_raster.md R160). -/
def bodyRender (L : Latch) (buf : Memory) : Except ErrCode CmdResult :=
  .ok
    { writes := (List.range L.height).flatMap fun y => (List.range L.width).map fun x =>
        (pixelAddr L.dstAddr.toNat L.width x y,
          pixelOf (streamBit L buf (L.frameIndex.toNat * L.bpf + blockIndex L x y)))
      len := L.width * L.height
      aux := 0
      first := noMism
      mism := false }

/-- RENDER (42_raster.md R160). -/
def execRender (s : State) : Host.Outcome State Fault Refusal := perform .render bodyRender s

/-- The pixel sum of block (r, c) of the frame at SRC_ADDR (42_raster.md R165). -/
def blockSum (L : Latch) (buf : Memory) (r c : Nat) : Nat :=
  ((List.range L.block).flatMap fun dy => (List.range L.block).map fun dx =>
    (Memory.read buf (pixelAddr L.srcAddr.toNat L.width (c * L.block + dx) (r * L.block + dy))).toNat).sum

/-- The bit of block (r, c): mean > 127, evaluated exactly (42_raster.md R165, R166). -/
def blockBit (L : Latch) (buf : Memory) (r c : Nat) : Bool := decide (127 * L.block * L.block < blockSum L buf r c)

/-- The blocks of a frame in row-major order, each with its index within the frame (42_raster.md R165). -/
def frameBlocks (L : Latch) : List (Nat × Nat) :=
  (List.range (L.height / L.block)).flatMap fun r => (List.range (L.width / L.block)).map fun c => (r, c)

/-- BUF after the BitWrites of EXTRACT, in order; the pixels are read from BUF as it stood (42_raster.md R165,
20_memory.md R65, 00_scope.md R13). -/
def extractBits (L : Latch) (buf : Memory) : Memory :=
  (frameBlocks L).foldl
    (fun m rc =>
      bitWrite m L.dstAddr.toNat (L.frameIndex.toNat * L.bpf + rc.1 * (L.width / L.block) + rc.2)
        (blockBit L buf rc.1 rc.2)) buf

/-- Body(EXTRACT) (42_raster.md R165): the destination bytes as the BitWrites left them. -/
def bodyExtract (L : Latch) (buf : Memory) : Except ErrCode CmdResult :=
  let work := extractBits L buf
  .ok
    { writes := (List.range L.extractLen).map fun j => (L.extractStart + j, Memory.read work (L.extractStart + j))
      len := (L.frameIndex.toNat + 1) * L.bpf
      aux := 0
      first := noMism
      mism := false }

/-- EXTRACT (42_raster.md R165). -/
def execExtract (s : State) : Host.Outcome State Fault Refusal := perform .extract bodyExtract s

end Sys2Proof.Machine
end

