-- ==== Sys2Proof/Machine/Dispatch.lean ====
section
/-! DEFINITION. One arm per command (30_encoding.md R92). -/

namespace Sys2Proof.Machine

def exec (i : Instr) (s : State) : Host.Outcome State Fault Refusal :=
  match i with
  | .nop => Sys2Proof.Machine.execNop s
  | .bframe => Sys2Proof.Machine.execBframe s
  | .bdeframe => Sys2Proof.Machine.execBdeframe s
  | .bdeframeS => Sys2Proof.Machine.execBdeframeS s
  | .render => Sys2Proof.Machine.execRender s
  | .extract => Sys2Proof.Machine.execExtract s
  | .pframe => Sys2Proof.Machine.execPframe s
  | .psplit => Sys2Proof.Machine.execPsplit s

end Sys2Proof.Machine
end

