-- ==== Sys2Proof/Machine/Bus.lean ====
section
/-! DEFINITION. One bus access of the host (20_memory.md R62, R67, R70): which target it reaches, what a read returns,
what a write does. -/

namespace Sys2Proof.Machine

/-- What a host access reaches: a register slot by its offset, or a BUF byte by its address (20_memory.md R70). -/
inductive Target where
  | reg (off : Nat)
  | buf (a : Nat)
  deriving DecidableEq, Repr

/-- The target of an access of a width at a host address, or why the access has no meaning (20_memory.md R62, R67).
DEDUCED, safe: the names of the refusals (notes/assumptions/11.md) and the order of the windows, which legal parameters
keep apart (notes/assumptions/18.md). -/
def route (p : Params) (w : Width) (addr : Nat) : Except Refusal Target :=
  if p.regBase ≤ addr ∧ addr < p.regBase + 256 then
    if w ≠ .w32 then .error .registerAccessWidth
    else if (addr - p.regBase) % 4 ≠ 0 then .error .registerAccessMisaligned
    else .ok (.reg (addr - p.regBase))
  else if p.bufBase ≤ addr ∧ addr < p.bufBase + p.bufBytes then
    if w ≠ .w8 then .error .bufAccessWidth else .ok (.buf (addr - p.bufBase))
  else .error .outsideWindows

/-- What an access does: data or a new state; or the hazard BufWhileBusy (70_reset_and_hazards.md R240). -/
inductive Reply (α : Type) where
  | done (x : α)
  | bufWhileBusy
  | refused (r : Refusal)
  deriving DecidableEq, Repr

/-- The value of a host read: a register slot at any time, a BUF byte (widened to 32 bits with zeros: DEDUCED, unsafe,
notes/assumptions/13.md) when BUSY = 0
(20_memory.md R62, R69, 70_reset_and_hazards.md R240, R250). -/
def busRead (w : Width) (addr : Nat) (s : State) : Reply Word :=
  match route s.params w addr with
  | .error r => .refused r
  | .ok (.reg off) => .done (readSlot off s)
  | .ok (.buf a) => if s.regs.status.busy then .bufWhileBusy else .done ((Memory.read s.buf a).setWidth 32)

/-- The state after a host write: a register slot at any time, a BUF byte (the low byte of the value) when BUSY = 0
(20_memory.md R62, 70_reset_and_hazards.md R240, R250). -/
def busWrite (w : Width) (addr : Nat) (v : Word) (s : State) : Reply State :=
  match route s.params w addr with
  | .error r => .refused r
  | .ok (.reg off) => .done (writeSlot off v s)
  | .ok (.buf a) =>
    if s.regs.status.busy then .bufWhileBusy else .done { s with buf := Memory.write s.buf a (v.setWidth 8) }

end Sys2Proof.Machine
end

