-- ==== Sys2Proof/Machine/HostProgram.lean ====
section
/-! DEFINITION. The host agent: one statement of its program per turn (30_encoding.md R98), and the pseudo-instructions
as lists of statements (R99). -/

namespace Sys2Proof.Machine

/-- The value of host variable `t`; one that nothing assigned is a free value (notes/assumptions/5.md). -/
def hostVar (h : HostAgent) (t : Nat) : Word :=
  match h.vars.find? (fun p => p.1 == t) with
  | some p => p.2
  | none => Config.unsetVar t

/-- The value that a statement writes. -/
def operandValue (v : Operand) (h : HostAgent) : Word :=
  match v with
  | .lit x => x
  | .var t => hostVar h t

/-- Assign host variable `t`. -/
def setVar (t : Nat) (v : Word) (h : HostAgent) : HostAgent :=
  { h with vars := (t, v) :: h.vars.filter (fun p => p.1 != t) }

/-- Pass to the next statement. -/
def advance (s : State) : State := { s with host := { s.host with pos := s.host.pos + 1 } }

/-- The hazard of 70_reset_and_hazards.md R240: recorded, and nothing else happens. -/
def recordHazard (s : State) : State := { s with fault := some .bufWhileBusy }

/-- A base statement that reads into variable `t` (30_encoding.md R98). -/
def hostRead (w : Width) (addr t : Nat) (s : State) : Host.Outcome State Fault Refusal :=
  match busRead w addr s with
  | .done v => .next (advance { s with host := setVar t v s.host })
  | .bufWhileBusy => .next (recordHazard s)
  | .refused r => .refused r

/-- A base statement that writes (30_encoding.md R98). -/
def hostWrite (w : Width) (addr : Nat) (v : Word) (s : State) : Host.Outcome State Fault Refusal :=
  match busWrite w addr v s with
  | .done s' => .next (advance s')
  | .bufWhileBusy => .next (recordHazard s)
  | .refused r => .refused r

/-- Go to a label: the position of its first statement (30_encoding.md R98). DESIGN CHOICE, unsafe for two equal labels
(notes/assumptions/15.md). -/
def jumpTo (l : Nat) (s : State) : Host.Outcome State Fault Refusal :=
  match s.host.prog.findIdx? (fun st => st == .label l) with
  | some p => .next { s with host := { s.host with pos := p } }
  | none => .refused (.unknownLabel l)

/-- One statement of the host program (30_encoding.md R98). DESIGN CHOICE, unsafe for a claim that counts steps: a
host-internal statement (BSET, J, a label), to which R98 gives no access, takes a turn of its own
(notes/assumptions/20.md). -/
def execStmt (st : Stmt) (s : State) : Host.Outcome State Fault Refusal :=
  match st with
  | .wr off v => hostWrite .w32 (s.params.regBase + off) (operandValue v s.host) s
  | .rd off t => hostRead .w32 (s.params.regBase + off) t s
  | .sb a v => hostWrite .w8 (s.params.bufBase + a) (operandValue v s.host) s
  | .lb a t => hostRead .w8 (s.params.bufBase + a) t s
  | .bset t n l => if (hostVar s.host t).getLsbD n then jumpTo l s else .next (advance s)
  | .jump l => jumpTo l s
  | .label _ => .next (advance s)
  | .writeAt w addr v => hostWrite w addr (operandValue v s.host) s
  | .readAt w addr t => hostRead w addr t s

/-- A turn of the host: stopped where a hazard is recorded (70_reset_and_hazards.md R240; the fault is DEDUCED, safe:
notes/assumptions/8.md); nothing to do past the last statement (30_encoding.md R98; DESIGN CHOICE, safe:
notes/assumptions/12.md). -/
def hostTurn (s : State) : Host.Outcome State Fault Refusal :=
  match s.fault with
  | some f => .fault (.hostStopped f)
  | none =>
    match s.host.prog[s.host.pos]? with
    | none => .next s
    | some st => execStmt st s

/-- The bus access that a statement makes, if it makes one (30_encoding.md R98). -/
def stmtAccess (p : Params) : Stmt → Option (Width × Nat)
  | .wr off _ => some (.w32, p.regBase + off)
  | .rd off _ => some (.w32, p.regBase + off)
  | .sb a _ => some (.w8, p.bufBase + a)
  | .lb a _ => some (.w8, p.bufBase + a)
  | .bset _ _ _ => none
  | .jump _ => none
  | .label _ => none
  | .writeAt w addr _ => some (w, addr)
  | .readAt w addr _ => some (w, addr)

/-- The label that a statement may go to (30_encoding.md R98). -/
def stmtTarget : Stmt → Option Nat
  | .wr _ _ => none
  | .rd _ _ => none
  | .sb _ _ => none
  | .lb _ _ => none
  | .bset _ _ l => some l
  | .jump l => some l
  | .label _ => none
  | .writeAt _ _ _ => none
  | .readAt _ _ _ => none

/-- A host program every access of which has a meaning (20_memory.md R67) and every branch of which has its label. -/
def programOk (p : Params) (prog : List Stmt) : Bool :=
  prog.all fun st =>
    (match stmtAccess p st with
      | some (w, addr) => (route p w addr).isOk
      | none => true) &&
    (match stmtTarget st with
      | some l => prog.any fun st' => st' == .label l
      | none => true)

/-- `ISSUE <MNEMONIC>` (30_encoding.md R99). -/
def stmtsIssue (i : Instr) : List Stmt := [.wr (regOffset .cmd) (.lit (encode i))]

/-- `WAIT`, with host variable `t` and label `l` (30_encoding.md R99). -/
def stmtsWait (t l : Nat) : List Stmt := [.label l, .rd (regOffset .status) t, .bset t 0 l]

/-- `RUN <MNEMONIC>` (30_encoding.md R99). -/
def stmtsRun (i : Instr) (t l : Nat) : List Stmt := stmtsIssue i ++ stmtsWait t l

/-- `GEOM <W>, <H>, <BS>` (30_encoding.md R99). -/
def stmtsGeom (w h bs : Operand) : List Stmt :=
  [.wr (regOffset .frameW) w, .wr (regOffset .frameH) h, .wr (regOffset .blockSize) bs]

/-- `SBS <a>, <v0>, <v1>, ...` (30_encoding.md R99). -/
def stmtsSbs (a : Nat) (vs : List Operand) : List Stmt := vs.mapIdx fun k v => .sb (a + k) v

end Sys2Proof.Machine
end

