-- ==== Sys2Proof/Machine/Turn.lean ====
section
/-! DEFINITION. Whose turn it is, and what a turn does (10_state.md R22, 40_command_lifecycle.md R115, R125,
70_reset_and_hazards.md R231). -/

namespace Sys2Proof.Machine

/-- A turn of the engine (40_command_lifecycle.md R115, R122): with no command latched it has no step and the turn
passes (DESIGN CHOICE, safe: notes/assumptions/12.md); an illegal word ends with ILLEGAL_CMD (30_encoding.md R91); a legal one is performed. -/
def engineTurn (s : State) : Host.Outcome State Fault Refusal :=
  match s.latch with
  | none => .next s
  | some L =>
    match decode L.cmd with
    | .error _ => .next (failWith .illegalCmd s)
    | .ok i => exec i s

/-- A turn of one agent (10_state.md R22, 70_reset_and_hazards.md R231). -/
def turnOf (a : Agent) (s : State) : Host.Outcome State Fault Refusal :=
  match a with
  | .host => hostTurn s
  | .engine => engineTurn s
  | .reset => .next (resetTurn s)

/-- Who moves when the schedule is empty: the engine as long as a command is latched, so that every command is
performed (weak fairness, 40_command_lifecycle.md R125), else the host. DESIGN CHOICE (notes/assumptions/3.md). -/
def defaultAgent (s : State) : Agent := if s.latch.isSome then .engine else .host

/-- One step: the scheduled agent's turn, or the default agent's when the schedule is empty. -/
def takeTurn (s : State) : Host.Outcome State Fault Refusal :=
  match s.sched with
  | [] => turnOf (defaultAgent s) s
  | a :: rest => turnOf a { s with sched := rest }

/-- `s` after an accepted CMD write of `w`, with the engine to move next: the very next step performs the word
(notes/assumptions/10.md). -/
def placeCommand (w : Word) (s : State) : State := { acceptCmd w s with sched := .engine :: s.sched }

end Sys2Proof.Machine
end

