-- ==== Sys2Proof/Machine/Step.lean ====
section
/-! DEFINITION. One step of the machine, and the state in which the next step runs a given command word. -/

namespace Sys2Proof.Machine

/-- One step: one turn of one agent (10_state.md R22). -/
def step : State → Host.Outcome State Fault Refusal := Sys2Proof.Machine.takeTurn

/-- `s` with the command word made of the `nbits` low bits of `w` accepted by CMD, and the engine to move next. -/
def State.withFetchWord (s : State) (nbits w : Nat) : State :=
  Sys2Proof.Machine.placeCommand (BitVec.ofNat 32 (w % 2 ^ nbits)) s

end Sys2Proof.Machine
end

