-- ==== Sys2Proof/Safety.lean ====
section
/-! DEFINITION. What counts as a legal state, a completed or failed command, the end of a run, in the terms the
statements use. -/

namespace Sys2Proof.Machine

/-- BUF is data of a BUF of BUF_BYTES bytes (20_memory.md R60), in canonical form. -/
abbrev State.BufOk (s : State) : Prop := Memory.wf s.buf ∧ Memory.within s.params.bufBytes s.buf

/-- The latch and BUSY agree (10_state.md R33, R51), and a latched word is the one CMD reads back (R31). -/
abbrev State.LatchOk (s : State) : Prop :=
  s.regs.status.busy = s.latch.isSome ∧ ∀ L ∈ s.latch, L.cmd = s.regs.cmd

/-- The flags agree with one another: a running command shows no result (40_command_lifecycle.md R111); ERR says that
ERRCODE is not 0 (10_state.md R35, R38), and then DONE is 1 and the results are those of `fail` (R118); MISM is set
only by a success that counted a mismatch (10_state.md R36, R47). -/
abbrev State.FlagsOk (s : State) : Prop :=
  (s.regs.status.busy = true →
    s.regs.status.done = false ∧ s.regs.status.err = false ∧ s.regs.status.mism = false) ∧
  (s.regs.status.err = true ↔ s.regs.status.errCode ≠ .none) ∧
  (s.regs.status.err = true →
    s.regs.status.done = true ∧ s.regs.status.mism = false ∧
      s.regs.resultLen = 0 ∧ s.regs.resultAux = 0 ∧ s.regs.firstMism = 0xFFFFFFFF) ∧
  (s.regs.status.mism = true → s.regs.status.done = true ∧ s.regs.resultAux ≠ 0)

/-- The invariant of the machine: legal parameters, a well-formed BUF, latch and BUSY in step, flags in step. -/
abbrev State.Inv (s : State) : Prop := s.params.Legal ∧ s.BufOk ∧ s.LatchOk ∧ s.FlagsOk

/-- The end of a run (70_reset_and_hazards.md R249): no further host statement, BUSY = 0, fault = none. -/
abbrev State.RunEnded (s : State) : Prop :=
  s.host.prog.length ≤ s.host.pos ∧ s.regs.status.busy = false ∧ s.fault = none

/-- The next state of an outcome, if it is one. -/
def nextState (o : Host.Outcome State Fault Refusal) : Option State :=
  match o with
  | .next s => some s
  | .fault _ => none
  | .refused _ => none

/-- The command's checks all pass on the latched operands (40_command_lifecycle.md R119 to R122): the geometry is legal
where it is used, every range is in BUF, no destination overlaps a source or the other destination. -/
abbrev ChecksPass (i : Instr) (L : Latch) (bufBytes : Nat) : Prop :=
  (usesGeometry i = true → L.geometryOk = true) ∧
  (operandRanges i L).allInBuf bufBytes = true ∧ (operandRanges i L).overlapping = false

/-- GeometryLegal(W, H, BS), in the words of 40_command_lifecycle.md R119. -/
abbrev GeometryLegal (W H BS : Nat) : Prop := 1 ≤ BS ∧ 1 ≤ W ∧ 1 ≤ H ∧ W % BS = 0 ∧ H % BS = 0

/-- Overlap((A, n), (B, m)), in the words of 40_command_lifecycle.md R121. -/
abbrev Overlap (A n B m : Nat) : Prop := 0 < n ∧ 0 < m ∧ A < B + m ∧ B < A + n

/-- Some address lies in both ranges `(A, n)` and `(B, m)`. -/
abbrev SharesByte (A n B m : Nat) : Prop := ∃ x, (A ≤ x ∧ x < A + n) ∧ B ≤ x ∧ x < B + m

/-- `t` holds the registers that `complete(len, aux, first, mism)` leaves (40_command_lifecycle.md R115, R117), with the
numbers as they are before any narrowing to 32 bits. -/
abbrev CompletedWith (s t : State) (len aux : Nat) (first : Word) (mism : Bool) : Prop :=
  t.latch = none ∧ t.regs.resultLen.toNat = len ∧ t.regs.resultAux.toNat = aux ∧ t.regs.firstMism = first ∧
  t.regs.status = { busy := false, done := true, err := false, mism := mism, overrun := s.regs.status.overrun,
                    errCode := .none }

/-- `t` holds what `fail(code)` leaves (40_command_lifecycle.md R115, R118): BUF is unchanged. -/
abbrev FailedWith (s t : State) (code : ErrCode) : Prop :=
  t.latch = none ∧ t.regs.resultLen = 0 ∧ t.regs.resultAux = 0 ∧ t.regs.firstMism = 0xFFFFFFFF ∧
  t.regs.status = { busy := false, done := true, err := true, mism := false, overrun := s.regs.status.overrun,
                    errCode := code } ∧
  t.buf = s.buf

/-- What no command writes: the parameters, CMD, the geometry and argument registers, the fault record, the host, the
schedule and the draw counter. -/
abbrev KeepsRest (s t : State) : Prop :=
  t.params = s.params ∧ t.fault = s.fault ∧ t.host = s.host ∧ t.sched = s.sched ∧ t.draws = s.draws ∧
  t.regs.frameW = s.regs.frameW ∧ t.regs.frameH = s.regs.frameH ∧ t.regs.blockSize = s.regs.blockSize ∧
  t.regs.cmd = s.regs.cmd ∧ t.regs.srcAddr = s.regs.srcAddr ∧ t.regs.srcLen = s.regs.srcLen ∧
  t.regs.src2Addr = s.regs.src2Addr ∧ t.regs.src2Len = s.regs.src2Len ∧ t.regs.dstAddr = s.regs.dstAddr ∧
  t.regs.dst2Addr = s.regs.dst2Addr ∧ t.regs.frameIndex = s.regs.frameIndex

/-- Every byte outside the `n` bytes from `D` on reads as before. -/
abbrev OnlyWrites (s t : State) (D n : Nat) : Prop :=
  ∀ a, a < D ∨ D + n ≤ a → Memory.read t.buf a = Memory.read s.buf a

/-- The agent that takes the next step: the head of the schedule, or the default agent when it is empty. -/
def State.mover (s : State) : Agent :=
  match s.sched with
  | [] => defaultAgent s
  | a :: _ => a

/-- The state in which the agent that moves takes its turn: the schedule without the agent that moves. -/
def State.popped (s : State) : State := { s with sched := s.sched.tail }

/-- The next statement of the host (30_encoding.md R98), which no recorded hazard stops. -/
def State.hostAt (s : State) (st : Stmt) : Prop := s.fault = none ∧ s.host.prog[s.host.pos]? = some st

/-- The next statement of the host writes `v` to the register at `off`. -/
def State.hostWritesReg (s : State) (off : Nat) (v : Word) : Prop :=
  ∃ o, v = operandValue o s.host ∧
    (s.hostAt (.wr off o) ∨ s.hostAt (.writeAt .w32 (s.params.regBase + off) o))

/-- The next statement of the host is a byte access to BUF address `a`. -/
def State.hostTouchesBuf (s : State) (a : Nat) : Prop :=
  (∃ o, s.hostAt (.sb a o) ∨ s.hostAt (.writeAt .w8 (s.params.bufBase + a) o)) ∨
  (∃ t, s.hostAt (.lb a t) ∨ s.hostAt (.readAt .w8 (s.params.bufBase + a) t))

end Sys2Proof.Machine
end

