-- ==== Sys2Proof/Certificates/Slice0/Obligations.lean ====
section
/-! DEFINITION. The statements for the provers. Each formalises what the spec says of the machine; OBLIGATIONS.json
gives its rule, tier and quote. Where a statement has hypotheses, a theorem `witness_<name>` in
Sys2Proof/Tests/Slice0.lean meets them. -/

open Sys2Proof Sys2Proof.Machine

/-! ## Command words -/

/-- The eight words of the opcode table, written out bit by bit as RSV ++ S ++ OP (30_encoding.md R90, R92). -/
def Obligations.TableWordsDecode : Prop :=
  decode (0#27 ++ 0#1 ++ 0b0000#4) = .ok .nop ∧ decode (0#27 ++ 0#1 ++ 0b0001#4) = .ok .bframe ∧
  decode (0#27 ++ 0#1 ++ 0b0010#4) = .ok .bdeframe ∧ decode (0#27 ++ 1#1 ++ 0b0010#4) = .ok .bdeframeS ∧
  decode (0#27 ++ 0#1 ++ 0b0011#4) = .ok .render ∧ decode (0#27 ++ 0#1 ++ 0b0100#4) = .ok .extract ∧
  decode (0#27 ++ 0#1 ++ 0b0101#4) = .ok .pframe ∧ decode (0#27 ++ 0#1 ++ 0b0110#4) = .ok .psplit

/-- R92: each command is selected by its exact 32-bit word, and no other 32-bit value selects a command. -/
def Obligations.DecodeAgreesWithEncode : Prop :=
  (encode .nop = 0x00000000#32 ∧ encode .bframe = 0x00000001#32 ∧ encode .bdeframe = 0x00000002#32 ∧
    encode .bdeframeS = 0x00000012#32 ∧ encode .render = 0x00000003#32 ∧ encode .extract = 0x00000004#32 ∧
    encode .pframe = 0x00000005#32 ∧ encode .psplit = 0x00000006#32) ∧
  ∀ (w : Word) (i : Instr), decode w = .ok i ↔ w = encode i

/-- R202: a latched word with a reserved OP, with S = 1 and an OP other than 0x2, or with an RSV bit set ends with
ILLEGAL_CMD; every other latched word decodes to a command. -/
def Obligations.IllegalWordFails : Prop :=
  ∀ (s : State) (L : Latch), s.latch = some L →
    ((7 ≤ (L.cmd.extractLsb' 0 4).toNat ∨ (L.cmd.getLsbD 4 = true ∧ L.cmd.extractLsb' 0 4 ≠ 2#4) ∨
        L.cmd.extractLsb' 5 27 ≠ 0#27) →
      ∃ t, engineTurn s = .next t ∧ FailedWith s t .illegalCmd ∧ KeepsRest s t) ∧
    (¬ (7 ≤ (L.cmd.extractLsb' 0 4).toNat ∨ (L.cmd.getLsbD 4 = true ∧ L.cmd.extractLsb' 0 4 ≠ 2#4) ∨
        L.cmd.extractLsb' 5 27 ≠ 0#27) →
      ∃ i, decode L.cmd = .ok i)

/-- A step of the engine runs the command that the latched word decodes to. Around it, the model's step only takes the
engine off the head of the schedule (notes/assumptions/3.md, the model's choice). -/
def Obligations.StepRunsDecodedCommand : Prop :=
  ∀ (s : State) (L : Latch) (i : Instr), s.latch = some L → decode L.cmd = .ok i → s.mover = .engine →
    step s = exec i { s with sched := s.sched.tail }

/-- An accepted CMD write of a legal word, then the engine's step: exactly one completion (R110). The host statement is
`ISSUE`, the schedule is empty (the engine moves when a command is latched, notes/assumptions/3.md). -/
def Obligations.IssuedCommandIsPerformed : Prop :=
  ∀ (s : State) (i : Instr), s.params.Legal → s.latch = none → s.regs.status.busy = false → s.sched = [] →
    s.hostAt (.wr 0x1C (.lit (encode i))) →
    ∃ t u, step s = .next t ∧ t.latch = some (latchOf (encode i) s.regs) ∧ t.regs.cmd = encode i ∧
      t.regs.status.busy = true ∧ t.buf = s.buf ∧ t.host.pos = s.host.pos + 1 ∧
      step t = exec i t ∧ exec i t = .next u ∧ u.latch = none ∧ u.regs.status.busy = false ∧
      u.regs.status.done = true

/-! ## Registers and reset -/

/-- R230: what power-on reset leaves, read register by register, for all legal parameters and every launch BUF. -/
def Obligations.LaunchStateValues : Prop :=
  ∀ (p : Params) (m : Memory), p.Legal →
    readSlot 0x00 (State.launch p m) = 0x49534701#32 ∧ (readSlot 0x04 (State.launch p m)).toNat = p.bufBytes ∧
    readSlot 0x08 (State.launch p m) = 0 ∧ readSlot 0x0C (State.launch p m) = 0 ∧
    readSlot 0x10 (State.launch p m) = 0 ∧ readSlot 0x14 (State.launch p m) = 8 ∧
    readSlot 0x18 (State.launch p m) = 0 ∧ readSlot 0x1C (State.launch p m) = 0 ∧
    readSlot 0x20 (State.launch p m) = 0 ∧ readSlot 0x24 (State.launch p m) = 0 ∧
    readSlot 0x28 (State.launch p m) = 0 ∧ readSlot 0x2C (State.launch p m) = 0 ∧
    readSlot 0x30 (State.launch p m) = 0 ∧ readSlot 0x34 (State.launch p m) = 0 ∧
    readSlot 0x38 (State.launch p m) = 0 ∧ readSlot 0x3C (State.launch p m) = 0 ∧
    readSlot 0x40 (State.launch p m) = 0 ∧ readSlot 0x44 (State.launch p m) = 0 ∧
    readSlot 0x48 (State.launch p m) = 0xFFFFFFFF#32 ∧
    (State.launch p m).latch = none ∧ (State.launch p m).buf = m ∧ (State.launch p m).fault = none

/-- 70_reset_and_hazards.md I1 (R231): a reset during a run gives every register its reset value and empties the latch;
each BUF byte in a destination range of the command cut short takes an unspecified value; every other byte keeps its
value; the fault record is unchanged. The model's choices: the unspecified value is a free byte at a counter that the
reset advances (notes/assumptions/6.md; nothing rests on its value); the host is unchanged (notes/assumptions/4.md); the
destination range of RENDER and EXTRACT under an illegal geometry, and that an illegal word has none
(notes/assumptions/7.md); that a reset moves is said by the schedule (notes/assumptions/3.md). -/
def Obligations.ResetDuringRun : Prop :=
  ∀ s : State, Memory.wf s.buf → s.mover = .reset →
    ∃ t, step s = .next t ∧ t.regs = (State.launch s.params []).regs ∧ t.latch = none ∧ t.fault = s.fault ∧
      t.params = s.params ∧ t.host = s.host ∧
      (∀ a, (∃ L i r, s.latch = some L ∧ decode L.cmd = .ok i ∧ r ∈ (operandRanges i L).dests ∧ r.start ≤ a ∧
          a < r.start + r.len ∧ a < s.params.bufBytes) →
        ∃ k, s.draws ≤ k ∧ k < t.draws ∧ Memory.read t.buf a = Config.freeByte k) ∧
      (∀ a, (¬ ∃ L i r, s.latch = some L ∧ decode L.cmd = .ok i ∧ r ∈ (operandRanges i L).dests ∧ r.start ≤ a ∧
          a < r.start + r.len ∧ a < s.params.bufBytes) →
        Memory.read t.buf a = Memory.read s.buf a)

/-- R24, R25, R29: ID, BUFSZ and ECB read their constants in every state, and a write of any of them changes nothing. -/
def Obligations.HardwiredRegisters : Prop :=
  ∀ (s : State) (w : Word), s.params.Legal →
    readSlot 0x00 s = 0x49534701#32 ∧ (readSlot 0x04 s).toNat = s.params.bufBytes ∧ readSlot 0x14 s = 8#32 ∧
    writeSlot 0x00 w s = s ∧ writeSlot 0x04 w s = s ∧ writeSlot 0x14 w s = s

/-- 10_state.md, result registers (R46 to R48) with R23: the three result registers read what the last completion left
(or a reset, R230): no step of the host changes them, nor a turn of the engine without a latched command (that it answers
a next state is the model's choice, notes/assumptions/12.md); and a host write of any of them changes nothing. -/
def Obligations.ResultRegistersReadOnly : Prop :=
  (∀ (s : State) (w : Word),
    readSlot 0x40 s = s.regs.resultLen ∧ readSlot 0x44 s = s.regs.resultAux ∧ readSlot 0x48 s = s.regs.firstMism ∧
    writeSlot 0x40 w s = s ∧ writeSlot 0x44 w s = s ∧ writeSlot 0x48 w s = s) ∧
  ∀ s t : State, step s = .next t → s.mover = .host ∨ (s.mover = .engine ∧ s.latch = none) →
    readSlot 0x40 t = readSlot 0x40 s ∧ readSlot 0x44 t = readSlot 0x44 s ∧ readSlot 0x48 t = readSlot 0x48 s

/-- R30: BPF reads the number of blocks of the CURRENT geometry registers, 0 if the geometry is illegal, and ignores
writes. -/
def Obligations.BpfReadsCurrentGeometry : Prop :=
  ∀ (s : State) (w : Word) (W H BS : Nat),
    W = s.regs.frameW.toNat → H = s.regs.frameH.toNat → BS = s.regs.blockSize.toNat →
    ((1 ≤ BS ∧ 1 ≤ W ∧ 1 ≤ H ∧ W % BS = 0 ∧ H % BS = 0) → (readSlot 0x18 s).toNat = (W / BS) * (H / BS)) ∧
    (¬ (1 ≤ BS ∧ 1 ≤ W ∧ 1 ≤ H ∧ W % BS = 0 ∧ H % BS = 0) → readSlot 0x18 s = 0#32) ∧
    writeSlot 0x18 w s = s

/-- 10_state.md B4 (R23, R26 to R28, R39 to R45): which register stands at each of the ten RW offsets; an RW register
reads back the written bits of its defined fields, and no other register but BPF reads differently after the write; the
latch, BUF and the fault record are unchanged. -/
def Obligations.WritableRegistersReadBack : Prop :=
  (∀ s : State,
    readSlot 0x08 s = s.regs.frameW.setWidth 32 ∧ readSlot 0x0C s = s.regs.frameH.setWidth 32 ∧
    readSlot 0x10 s = s.regs.blockSize.setWidth 32 ∧ readSlot 0x24 s = s.regs.srcAddr ∧
    readSlot 0x28 s = s.regs.srcLen ∧ readSlot 0x2C s = s.regs.src2Addr ∧ readSlot 0x30 s = s.regs.src2Len ∧
    readSlot 0x34 s = s.regs.dstAddr ∧ readSlot 0x38 s = s.regs.dst2Addr ∧ readSlot 0x3C s = s.regs.frameIndex) ∧
  ∀ (s : State) (off : Nat) (w : Word),
    off ∈ [0x08, 0x0C, 0x10, 0x24, 0x28, 0x2C, 0x30, 0x34, 0x38, 0x3C] →
    readSlot off (writeSlot off w s) = (if off ≤ 0x10 then w &&& 0x0000FFFF#32 else w) ∧
    (∀ off', off' ≠ off → off' ≠ 0x18 → readSlot off' (writeSlot off w s) = readSlot off' s) ∧
    (writeSlot off w s).latch = s.latch ∧ (writeSlot off w s).buf = s.buf ∧ (writeSlot off w s).fault = s.fault

/-- R49: reserved offsets and the reserved bits of every defined register read 0 and ignore writes; a write to an RW
register stores only the defined bits. -/
def Obligations.ReservedSpaceReadsZero : Prop :=
  ∀ (s : State) (w : Word),
    (∀ off, 0x4C ≤ off → off ≤ 0xFC → readSlot off s = 0 ∧ writeSlot off w s = s) ∧
    (∀ n, 16 ≤ n → (readSlot 0x08 s).getLsbD n = false ∧ (readSlot 0x0C s).getLsbD n = false ∧
      (readSlot 0x10 s).getLsbD n = false) ∧
    (∀ n, 8 ≤ n → (readSlot 0x14 s).getLsbD n = false) ∧
    (∀ n, (5 ≤ n ∧ n ≤ 7) ∨ 12 ≤ n → (readSlot 0x20 s).getLsbD n = false) ∧
    readSlot 0x08 (writeSlot 0x08 w s) = w &&& 0x0000FFFF#32 ∧
    readSlot 0x0C (writeSlot 0x0C w s) = w &&& 0x0000FFFF#32 ∧
    readSlot 0x10 (writeSlot 0x10 w s) = w &&& 0x0000FFFF#32

/-- The STATUS word of 10_state.md R32 with the error codes of 60_exceptions.md R201: each field at its bits. -/
def Obligations.StatusWordLayout : Prop :=
  ∀ s : State,
    (readSlot 0x20 s).getLsbD 0 = s.regs.status.busy ∧ (readSlot 0x20 s).getLsbD 1 = s.regs.status.done ∧
    (readSlot 0x20 s).getLsbD 2 = s.regs.status.err ∧ (readSlot 0x20 s).getLsbD 3 = s.regs.status.mism ∧
    (readSlot 0x20 s).getLsbD 4 = s.regs.status.overrun ∧
    ((readSlot 0x20 s).extractLsb' 8 4).toNat =
      (match s.regs.status.errCode with
        | .none => 0
        | .illegalCmd => 1
        | .badConfig => 2
        | .range => 3
        | .overlap => 4
        | .sentinel => 5
        | .framing => 6)

/-- R31, R111, R112: a CMD write while BUSY = 1 only sets OVERRUN; while BUSY = 0 it is accepted, legal word or not: CMD
reads it back, the latch copies it and the current registers, BUSY is set, DONE, ERR, MISM and ERRCODE are cleared, and
OVERRUN, the results and everything else stay. After reset CMD reads 0. -/
def Obligations.CmdWriteIssuesOrOverruns : Prop :=
  (∀ p m, readSlot 0x1C (State.launch p m) = 0) ∧
  ∀ (s : State) (w : Word),
    (s.regs.status.busy = true →
      writeSlot 0x1C w s = { s with regs := { s.regs with status := { s.regs.status with overrun := true } } }) ∧
    (s.regs.status.busy = false →
      readSlot 0x1C (writeSlot 0x1C w s) = w ∧
      writeSlot 0x1C w s =
        { s with
          latch := some
            { cmd := w, frameW := s.regs.frameW, frameH := s.regs.frameH, blockSize := s.regs.blockSize,
              srcAddr := s.regs.srcAddr, srcLen := s.regs.srcLen, src2Addr := s.regs.src2Addr,
              src2Len := s.regs.src2Len, dstAddr := s.regs.dstAddr, dst2Addr := s.regs.dst2Addr,
              frameIndex := s.regs.frameIndex }
          regs :=
            { s.regs with
              cmd := w
              status := { busy := true, done := false, err := false, mism := false,
                          overrun := s.regs.status.overrun, errCode := .none } } })

/-- 40_command_lifecycle.md, issue and latch (R114), 60_exceptions.md (R209): while BUSY = 1 no register write changes the latch, so the running command ends as it would have ended:
same BUF, same results, same flags but for OVERRUN. -/
def Obligations.WriteWhileBusyLeavesCommand : Prop :=
  ∀ (s : State) (off : Nat) (w : Word), s.regs.status.busy = true →
    (writeSlot off w s).latch = s.latch ∧
    ∀ t, engineTurn s = .next t → s.latch ≠ none →
      ∃ u, engineTurn (writeSlot off w s) = .next u ∧ u.buf = t.buf ∧ u.latch = t.latch ∧
        u.regs.resultLen = t.regs.resultLen ∧ u.regs.resultAux = t.regs.resultAux ∧
        u.regs.firstMism = t.regs.firstMism ∧ u.regs.status.done = t.regs.status.done ∧
        u.regs.status.busy = t.regs.status.busy ∧ u.regs.status.err = t.regs.status.err ∧
        u.regs.status.mism = t.regs.status.mism ∧ u.regs.status.errCode = t.regs.status.errCode ∧
        (off ≠ 0x1C → off ≠ 0x20 → u.regs.status.overrun = t.regs.status.overrun)

/-- R37: OVERRUN is set only by a CMD write while BUSY = 1, and cleared only by a STATUS write with bit 4 set or by a
reset: no other step changes it; and each of these events does (the first two change nothing else). -/
def Obligations.OverrunChangesOnlyByItsEvents : Prop :=
  (∀ s t : State, step s = .next t →
    (s.regs.status.overrun = false → t.regs.status.overrun = true →
      s.mover = .host ∧ s.regs.status.busy = true ∧ ∃ v, s.hostWritesReg 0x1C v) ∧
    (s.regs.status.overrun = true → t.regs.status.overrun = false →
      s.mover = .reset ∨ (s.mover = .host ∧ ∃ v, s.hostWritesReg 0x20 v ∧ v.getLsbD 4 = true))) ∧
  (∀ (s : State) (w : Word), s.regs.status.busy = true →
    writeSlot 0x1C w s =
      { s with regs := { s.regs with status := { s.regs.status with overrun := true } } }) ∧
  (∀ (s : State) (w : Word),
    writeSlot 0x20 w s =
      { s with regs := { s.regs with status :=
          { s.regs.status with overrun := s.regs.status.overrun && !w.getLsbD 4 } } }) ∧
  (∀ s : State, (resetTurn s).regs.status.overrun = false)

/-- 10_state.md B3 (R33 to R36, R38, R53): no step changes a flag other than OVERRUN but an accepted CMD write, the
engine step that ends a command, and a reset; MISM is set by BDEFRAME.S only. No command reads a flag: its writes, its
results and its new flags are the same whatever STATUS held, but for OVERRUN, which stays. -/
def Obligations.FlagsChangeOnlyByTheirEvents : Prop :=
  (∀ s t : State, step s = .next t → t.regs.status ≠ { s.regs.status with overrun := t.regs.status.overrun } →
    (s.mover = .host ∧ s.regs.status.busy = false ∧ (∃ v, s.hostWritesReg 0x1C v) ∧
      t.regs.status = { busy := true, done := false, err := false, mism := false,
                        overrun := s.regs.status.overrun, errCode := .none }) ∨
    (s.mover = .engine ∧ ∃ L, s.latch = some L ∧ t.regs.status.busy = false ∧ t.regs.status.done = true ∧
      (t.regs.status.err = true ↔ t.regs.status.errCode ≠ .none) ∧
      (t.regs.status.mism = true → decode L.cmd = .ok .bdeframeS ∧ t.regs.status.err = false)) ∨
    (s.mover = .reset ∧ readSlot 0x20 t = 0)) ∧
  (∀ (i : Instr) (s t : State) (st : Status), exec i s = .next t →
    ∃ u, exec i { s with regs := { s.regs with status := st } } = .next u ∧ u.buf = t.buf ∧
      u.regs.resultLen = t.regs.resultLen ∧ u.regs.resultAux = t.regs.resultAux ∧
      u.regs.firstMism = t.regs.firstMism ∧ u.regs.status = { t.regs.status with overrun := st.overrun })

/-! ## Host accesses -/

/-- 10_state.md B4 (R23): a 32-bit host access at an aligned offset of the register window writes or reads the slot at
that offset, in one step; the read assigns the host's variable and changes nothing else. -/
def Obligations.HostRegisterAccess : Prop :=
  ∀ (s : State) (off : Nat), off < 256 → off % 4 = 0 →
    (∀ o, s.hostAt (.wr off o) →
      hostTurn s = .next { writeSlot off (operandValue o s.host) s with
        host := { s.host with pos := s.host.pos + 1 } }) ∧
    (∀ x, s.hostAt (.rd off x) →
      ∃ t, hostTurn s = .next t ∧ hostVar t.host x = readSlot off s ∧
        (∀ y, y ≠ x → hostVar t.host y = hostVar s.host y) ∧ t.host.prog = s.host.prog ∧
        t.host.pos = s.host.pos + 1 ∧ t = { s with host := t.host })

/-- 20_memory.md B6 (R62): a host byte access at BUF_BASE + a, with a < BUF_BYTES and BUSY = 0, reads or writes buf[a] and no other byte;
an access with a >= BUF_BYTES has no step. How a byte and a 32-bit value fit is the model's choice, of the write and of
the read (notes/assumptions/13.md): a write takes the low 8 bits of its value, a read widens the byte with zeros. That
the address is a constant is the model's choice too (notes/assumptions/19.md). -/
def Obligations.HostByteAccess : Prop :=
  ∀ (s : State) (a : Nat), s.params.Legal → Memory.wf s.buf →
    (∀ o, s.hostAt (.sb a o) → a < s.params.bufBytes → s.regs.status.busy = false →
      ∃ t, hostTurn s = .next t ∧ Memory.read t.buf a = (operandValue o s.host).setWidth 8 ∧
        (∀ b, b ≠ a → Memory.read t.buf b = Memory.read s.buf b) ∧ t.regs = s.regs ∧ t.latch = s.latch ∧
        t.fault = none ∧ t.host = { s.host with pos := s.host.pos + 1 }) ∧
    (∀ x, s.hostAt (.lb a x) → a < s.params.bufBytes → s.regs.status.busy = false →
      ∃ t, hostTurn s = .next t ∧ (hostVar t.host x).toNat = (Memory.read s.buf a).toNat ∧ t.buf = s.buf ∧
        t.regs = s.regs ∧ t.latch = s.latch ∧ t.fault = none ∧ t.host.pos = s.host.pos + 1) ∧
    (∀ o, s.hostAt (.sb a o) → s.params.bufBytes ≤ a → ∃ r, hostTurn s = .refused r) ∧
    (∀ x, s.hostAt (.lb a x) → s.params.bufBytes ≤ a → ∃ r, hostTurn s = .refused r)

/-- 20_memory.md C2 (R67): exactly the 32-bit accesses at aligned offsets of the register window and the byte accesses
of the BUF window have a meaning; every other host access is refused, reads and writes alike. -/
def Obligations.OtherAccessesRefused : Prop :=
  ∀ (s : State) (w : Width) (addr : Nat), s.params.Legal →
    let legal := (w = .w32 ∧ ∃ off, off < 256 ∧ off % 4 = 0 ∧ addr = s.params.regBase + off) ∨
      (w = .w8 ∧ ∃ a, a < s.params.bufBytes ∧ addr = s.params.bufBase + a)
    (∀ x, s.hostAt (.readAt w addr x) → (legal ↔ ∃ t, hostTurn s = .next t) ∧
      (¬ legal ↔ ∃ r, hostTurn s = .refused r)) ∧
    (∀ o, s.hostAt (.writeAt w addr o) → (legal ↔ ∃ t, hostTurn s = .next t) ∧
      (¬ legal ↔ ∃ r, hostTurn s = .refused r))

/-- R240: a host BUF read or write while BUSY = 1 records BufWhileBusy and changes nothing else; the host is stopped
there, so it has no next state; the state is never final. -/
def Obligations.BufAccessWhileBusyFaults : Prop :=
  (∀ (s : State) (a : Nat), s.params.Legal → s.regs.status.busy = true → a < s.params.bufBytes →
    s.hostTouchesBuf a → hostTurn s = .next { s with fault := some .bufWhileBusy }) ∧
  (∀ (s : State) (f : HostFault), s.fault = some f → (∀ t, hostTurn s ≠ .next t) ∧ ¬ s.RunEnded)

/-- 20_memory.md C3 (R69): a host read that is served changes no block state; a register write has an effect beyond its
own register only at CMD and at STATUS. -/
def Obligations.ReadsHaveNoSideEffects : Prop :=
  (∀ (s t : State) (w : Width) (addr x : Nat), hostRead w addr x s = .next t → t.fault = s.fault →
    s.fault = none → t = { s with host := t.host }) ∧
  (∀ (s : State) (off : Nat) (w : Word), off ≠ 0x1C → off ≠ 0x20 →
    (writeSlot off w s).latch = s.latch ∧ (writeSlot off w s).regs.status = s.regs.status ∧
    (writeSlot off w s).buf = s.buf ∧
    ∀ off', off' ≠ off → off' ≠ 0x18 → readSlot off' (writeSlot off w s) = readSlot off' s)

/-- 30_encoding.md E6 (R98): BSET goes to its label exactly when bit n of the variable is 1, J always, a label
statement does nothing; none touches the block. The model's choices: a label stands where its first statement stands
(notes/assumptions/15.md), a bit number of 32 or more finds 0 (notes/assumptions/13.md), and each of the three takes a
turn of its own, though it makes no access (notes/assumptions/20.md). -/
def Obligations.HostBranches : Prop :=
  ∀ (s : State) (l p : Nat), s.host.prog.findIdx? (fun st => st == .label l) = some p →
    (s.hostAt (.jump l) → hostTurn s = .next { s with host := { s.host with pos := p } }) ∧
    (∀ x n, s.hostAt (.bset x n l) →
      ((hostVar s.host x).getLsbD n = true → hostTurn s = .next { s with host := { s.host with pos := p } }) ∧
      ((hostVar s.host x).getLsbD n = false →
        hostTurn s = .next { s with host := { s.host with pos := s.host.pos + 1 } })) ∧
    (s.hostAt (.label l) → hostTurn s = .next { s with host := { s.host with pos := s.host.pos + 1 } })

/-- 20_memory.md C2 (R67), 30_encoding.md E6 (R98): a host program whose accesses all have a meaning and whose branches
have their labels is never refused. That a branch to a missing label would be is the model's choice
(notes/assumptions/15.md). -/
def Obligations.CheckedProgramNeverRefused : Prop :=
  ∀ s : State, programOk s.params s.host.prog = true → ∀ r, hostTurn s ≠ .refused r

/-! ## The lifecycle of every command -/

/-- The frame of every command: no register but the result registers and STATUS, no parameter, no host state and no
fault record changes, OVERRUN stays, the latch is emptied, and every BUF byte outside the command's destination ranges
(40_command_lifecycle.md R120) is as before. -/
def Obligations.CommandFrame : Prop :=
  ∀ (i : Instr) (s t : State), exec i s = .next t →
    KeepsRest s t ∧ t.latch = none ∧ t.regs.status.overrun = s.regs.status.overrun ∧
    t.regs.status.busy = false ∧ t.regs.status.done = true ∧
    ∀ (L : Latch) (a : Nat), s.latch = some L →
      (∀ r ∈ (operandRanges i L).dests, a < r.start ∨ r.start + r.len ≤ a) →
      Memory.read t.buf a = Memory.read s.buf a

/-- R118: a command that ends with an error leaves exactly what `fail` leaves: ERR, ERRCODE, DONE, the zeroed results,
no BUF byte changed; one that ends without error has ERRCODE 0. -/
def Obligations.FailedCommandEffects : Prop :=
  ∀ (i : Instr) (s t : State), exec i s = .next t →
    (t.regs.status.err = true → t.regs.status.errCode ≠ .none ∧ FailedWith s t t.regs.status.errCode) ∧
    (t.regs.status.err = false → t.regs.status.errCode = .none)

/-- R203: RENDER and EXTRACT raise BAD_CONFIG exactly when the latched geometry is illegal, and no other command ever
does. -/
def Obligations.BadConfigExactlyIllegalGeometry : Prop :=
  (∀ (i : Instr) (s : State) (L : Latch), (i = .render ∨ i = .extract) → s.latch = some L →
    ∃ t, exec i s = .next t ∧
      (t.regs.status.errCode = .badConfig ↔
        L.blockSize = 0 ∨ L.frameW = 0 ∨ L.frameH = 0 ∨ L.frameW.toNat % L.blockSize.toNat ≠ 0 ∨
          L.frameH.toNat % L.blockSize.toNat ≠ 0) ∧
      (t.regs.status.errCode = .badConfig → FailedWith s t .badConfig)) ∧
  (∀ (i : Instr) (s t : State), i ≠ .render → i ≠ .extract → exec i s = .next t →
    t.regs.status.errCode ≠ .badConfig)

/-- R204, with the table of 40_command_lifecycle.md R120 row by row: with the geometry legal where it is used, a command
ends with RANGE exactly when one of its operand ranges ends past BUF; sums do not wrap. `(n + 7) / 8` is ceil(n / 8). -/
def Obligations.RangeExactlyOutsideBuf : Prop :=
  ∀ (i : Instr) (s : State) (L : Latch) (S S2 D D2 n a W H BS k bpf B : Nat), s.latch = some L →
    S = L.srcAddr.toNat → S2 = L.src2Addr.toNat → D = L.dstAddr.toNat → D2 = L.dst2Addr.toNat →
    n = L.srcLen.toNat → a = L.src2Len.toNat → W = L.frameW.toNat → H = L.frameH.toNat → BS = L.blockSize.toNat →
    k = L.frameIndex.toNat → bpf = (W / BS) * (H / BS) → B = s.params.bufBytes →
    (i = .render ∨ i = .extract → GeometryLegal W H BS) →
    ∃ t, exec i s = .next t ∧ (t.regs.status.errCode = .range → FailedWith s t .range) ∧
      (t.regs.status.errCode = .range ↔
        match i with
        | .nop => False
        | .bframe => B < S + n ∨ B < D + 2 * n
        | .bdeframe => B < S + (n + 7) / 8 ∨ B < D + n / 16
        | .bdeframeS => B < S + (n + 7) / 8 ∨ B < D + n / 16 ∨ B < D2 + (n / 16 + 7) / 8
        | .render => B < S + (n + 7) / 8 ∨ B < D + W * H
        | .extract =>
          B < S + W * H ∨ B < D + (k * bpf) / 8 + (((k + 1) * bpf + 7) / 8 - (k * bpf) / 8)
        | .pframe => B < S + n ∨ B < S2 + a ∨ B < D + (n + 1 + a)
        | .psplit => B < S + n)

/-- R205, with the table of 40_command_lifecycle.md R120 row by row: with the geometry legal where it is used, a command
ends with OVERLAP exactly when it does not end with RANGE (every range is in BUF) and a destination range shares a byte
with a source range or with the other destination range. -/
def Obligations.OverlapExactlySharedByte : Prop :=
  ∀ (i : Instr) (s : State) (L : Latch) (S S2 D D2 n a W H BS k bpf B : Nat), s.latch = some L →
    S = L.srcAddr.toNat → S2 = L.src2Addr.toNat → D = L.dstAddr.toNat → D2 = L.dst2Addr.toNat →
    n = L.srcLen.toNat → a = L.src2Len.toNat → W = L.frameW.toNat → H = L.frameH.toNat → BS = L.blockSize.toNat →
    k = L.frameIndex.toNat → bpf = (W / BS) * (H / BS) → B = s.params.bufBytes →
    (i = .render ∨ i = .extract → GeometryLegal W H BS) →
    ∃ t, exec i s = .next t ∧ (t.regs.status.errCode = .overlap → FailedWith s t .overlap) ∧
      (t.regs.status.errCode = .overlap ↔ t.regs.status.errCode ≠ .range ∧
        match i with
        | .nop => False
        | .bframe => SharesByte D (2 * n) S n
        | .bdeframe => SharesByte D (n / 16) S ((n + 7) / 8)
        | .bdeframeS =>
          SharesByte D (n / 16) S ((n + 7) / 8) ∨ SharesByte D2 ((n / 16 + 7) / 8) S ((n + 7) / 8) ∨
            SharesByte D (n / 16) D2 ((n / 16 + 7) / 8)
        | .render => SharesByte D (W * H) S ((n + 7) / 8)
        | .extract =>
          SharesByte (D + (k * bpf) / 8) (((k + 1) * bpf + 7) / 8 - (k * bpf) / 8) S (W * H)
        | .pframe => SharesByte D (n + 1 + a) S n ∨ SharesByte D (n + 1 + a) S2 a
        | .psplit => False)

/-- R210: one command reports the first error that applies, in the order ILLEGAL_CMD, BAD_CONFIG, RANGE, OVERLAP, then
SENTINEL or FRAMING. Each command's conditions are spelled out: the geometry of 40_command_lifecycle.md R119, the ranges
of R120, the overlap of R121. -/
def Obligations.ErrorPriority : Prop :=
  ∀ (s : State) (L : Latch) (S S2 D D2 n a W H BS k bpf B : Nat), s.latch = some L →
    S = L.srcAddr.toNat → S2 = L.src2Addr.toNat → D = L.dstAddr.toNat → D2 = L.dst2Addr.toNat →
    n = L.srcLen.toNat → a = L.src2Len.toNat → W = L.frameW.toNat → H = L.frameH.toNat → BS = L.blockSize.toNat →
    k = L.frameIndex.toNat → bpf = (W / BS) * (H / BS) → B = s.params.bufBytes →
    ∃ t, engineTurn s = .next t ∧
      ((∀ i, decode L.cmd ≠ .ok i) → t.regs.status.errCode = .illegalCmd) ∧
      ∀ i, decode L.cmd = .ok i →
        t.regs.status.errCode =
          match i with
          | .nop => .none
          | .bframe =>
            if B < S + n ∨ B < D + 2 * n then .range
            else if Overlap D (2 * n) S n then .overlap
            else .none
          | .bdeframe =>
            if B < S + (n + 7) / 8 ∨ B < D + n / 16 then .range
            else if Overlap D (n / 16) S ((n + 7) / 8) then .overlap
            else .none
          | .bdeframeS =>
            if B < S + (n + 7) / 8 ∨ B < D + n / 16 ∨ B < D2 + (n / 16 + 7) / 8 then .range
            else if Overlap D (n / 16) S ((n + 7) / 8) ∨ Overlap D2 ((n / 16 + 7) / 8) S ((n + 7) / 8) ∨
                Overlap D (n / 16) D2 ((n / 16 + 7) / 8) then .overlap
            else .none
          | .render =>
            if ¬ GeometryLegal W H BS then .badConfig
            else if B < S + (n + 7) / 8 ∨ B < D + W * H then .range
            else if Overlap D (W * H) S ((n + 7) / 8) then .overlap
            else .none
          | .extract =>
            if ¬ GeometryLegal W H BS then .badConfig
            else if B < S + W * H ∨ B < D + (k * bpf) / 8 + (((k + 1) * bpf + 7) / 8 - (k * bpf) / 8) then .range
            else if Overlap (D + (k * bpf) / 8) (((k + 1) * bpf + 7) / 8 - (k * bpf) / 8) S (W * H) then .overlap
            else .none
          | .pframe =>
            if B < S + n ∨ B < S2 + a ∨ B < D + (n + 1 + a) then .range
            else if Overlap D (n + 1 + a) S n ∨ Overlap D (n + 1 + a) S2 a then .overlap
            else if ∃ j < n, Memory.read s.buf (S + j) = 0x0A#8 then .sentinel
            else .none
          | .psplit =>
            if B < S + n then .range
            else if ∀ j < n, Memory.read s.buf (S + j) ≠ 0x0A#8 then .framing
            else .none

/-- 10_state.md R46 with 20_memory.md R61: after every completion RESULT_LEN is at most 8 × BUF_BYTES, and RESULT_AUX too;
after an error both are 0. -/
def Obligations.ResultsFitTheirBound : Prop :=
  ∀ (i : Instr) (s t : State), s.params.Legal → exec i s = .next t →
    t.regs.resultLen.toNat ≤ 8 * s.params.bufBytes ∧ t.regs.resultAux.toNat ≤ 8 * s.params.bufBytes ∧
    (t.regs.status.err = true → t.regs.resultLen = 0 ∧ t.regs.resultAux = 0)

/-! ## NOP -/

/-- R124: a latched NOP completes in every state, whatever the geometry and the arguments, with results 0, 0 and
0xFFFFFFFF, no error, BUF unchanged, OVERRUN unchanged; the STATUS word is 0x2 when OVERRUN was 0. The word 0x10 and a
word with OP 0, S 0 and a nonzero RSV are not NOP but illegal. -/
def Obligations.NopCompletes : Prop :=
  (∀ (s : State) (L : Latch), s.latch = some L →
    ∃ t, exec .nop s = .next t ∧ CompletedWith s t 0 0 0xFFFFFFFF#32 false ∧ t.buf = s.buf ∧ KeepsRest s t ∧
      (s.regs.status.overrun = false → readSlot 0x20 t = 0x00000002#32)) ∧
  (∃ e, decode 0x00000010#32 = .error e) ∧
  ∀ w : Word, w.extractLsb' 0 5 = 0#5 → w ≠ 0 → ∃ e, decode w = .error e

/-! ## Bit framing -/

/-- R141, R142, and R140 when its checks pass: BFRAME completes with RESULT_LEN 16n; byte 2j of the destination is payload byte j and byte 2j + 1
its popcount, 0 to 8; bit by bit that is binary8(b) ++ binary8(popcount b); every other byte is as before. -/
def Obligations.BframeResult : Prop :=
  ∀ (s : State) (L : Latch) (S D n : Nat), s.latch = some L → s.params.Legal → Memory.wf s.buf →
    S = L.srcAddr.toNat → D = L.dstAddr.toNat → n = L.srcLen.toNat →
    ChecksPass .bframe L s.params.bufBytes →
    ∃ t, exec .bframe s = .next t ∧ CompletedWith s t (16 * n) 0 0xFFFFFFFF#32 false ∧ KeepsRest s t ∧
      OnlyWrites s t D (2 * n) ∧
      ∀ j < n,
        Memory.read t.buf (D + 2 * j) = Memory.read s.buf (S + j) ∧
        (Memory.read t.buf (D + 2 * j + 1)).toNat = popcount (Memory.read s.buf (S + j)) ∧
        (Memory.read t.buf (D + 2 * j + 1)).toNat ≤ 8 ∧
        ∀ k < 8,
          bitRead t.buf D (16 * j + k) = (Memory.read s.buf (S + j)).getLsbD (7 - k) ∧
          bitRead t.buf D (16 * j + 8 + k) = (popcount (Memory.read s.buf (S + j))).testBit (7 - k)

/-- R144, and R143 when its checks pass: BDEFRAME completes with RESULT_LEN N = Lb / 16 whatever the check bytes hold; destination byte j is byte
2j of the stream; a final short chunk is dropped; every other byte is as before. -/
def Obligations.BdeframeResult : Prop :=
  ∀ (s : State) (L : Latch) (S D n : Nat), s.latch = some L → s.params.Legal → Memory.wf s.buf →
    S = L.srcAddr.toNat → D = L.dstAddr.toNat → n = L.srcLen.toNat / 16 →
    ChecksPass .bdeframe L s.params.bufBytes →
    ∃ t, exec .bdeframe s = .next t ∧ CompletedWith s t n 0 0xFFFFFFFF#32 false ∧ KeepsRest s t ∧
      OnlyWrites s t D n ∧ ∀ j < n, Memory.read t.buf (D + j) = Memory.read s.buf (S + 2 * j)

/-- 41_bitframing.md, BDEFRAME.S (R146) when its checks pass: BDEFRAME.S writes the bytes of BDEFRAME and the bitmap of the mismatches, its padding bits 0; RESULT_AUX counts
them, FIRST_MISM is the first one's index or 0xFFFFFFFF, MISM says whether there is one, ERR stays 0; every other byte is
as before. `m j` says that check byte j is not the popcount of byte j. -/
def Obligations.BdeframeStrictResult : Prop :=
  ∀ (s : State) (L : Latch) (S D D2 n : Nat) (m : Nat → Bool), s.latch = some L → s.params.Legal → Memory.wf s.buf →
    S = L.srcAddr.toNat → D = L.dstAddr.toNat → D2 = L.dst2Addr.toNat → n = L.srcLen.toNat / 16 →
    (∀ j, m j = decide ((Memory.read s.buf (S + 2 * j + 1)).toNat ≠ popcount (Memory.read s.buf (S + 2 * j)))) →
    ChecksPass .bdeframeS L s.params.bufBytes →
    ∃ t first, exec .bdeframeS s = .next t ∧
      CompletedWith s t n ((List.range n).filter m).length first
        (decide (0 < ((List.range n).filter m).length)) ∧
      KeepsRest s t ∧
      ((∀ j < n, m j = false) → first = 0xFFFFFFFF#32) ∧
      (∀ j < n, m j = true → (∀ k < j, m k = false) → first.toNat = j) ∧
      (∀ j < n, Memory.read t.buf (D + j) = Memory.read s.buf (S + 2 * j)) ∧
      (∀ j, j < 8 * ((n + 7) / 8) → bitRead t.buf D2 j = (decide (j < n) && m j)) ∧
      (∀ a, (a < D ∨ D + n ≤ a) → (a < D2 ∨ D2 + (n + 7) / 8 ≤ a) → Memory.read t.buf a = Memory.read s.buf a)

/-- R147: in a chunk that BFRAME wrote, flipping exactly one of the 16 bits always makes the strict decode report that
byte: its bitmap bit and MISM are 1. A check byte that equals the popcount is no mismatch, whatever was flipped; so the
pair 0x42 0x02, two flips of 0x41 0x02, passes. -/
def Obligations.StrictDetectsOneFlip : Prop :=
  (∀ (s : State) (L : Latch) (S : Nat) (j k : Nat) (b : Byte), s.latch = some L → s.params.Legal → Memory.wf s.buf →
    S = L.srcAddr.toNat → j < L.srcLen.toNat / 16 → k < 16 → ChecksPass .bdeframeS L s.params.bufBytes →
    (∀ q < 16, bitRead s.buf S (16 * j + q) =
      ((if q < 8 then b.getLsbD (7 - q) else (popcount b).testBit (15 - q)) ^^ decide (q = k))) →
    ∃ t, exec .bdeframeS s = .next t ∧ bitRead t.buf L.dst2Addr.toNat j = true ∧ t.regs.status.mism = true) ∧
  (∀ b c : Byte, c.toNat = popcount b → mismatch b c = false) ∧ mismatch 0x42#8 0x02#8 = false

/-- R145: BFRAME of a byte string, then BDEFRAME or BDEFRAME.S of the result with Lb = 16n, writes the byte string back,
and the strict decode reports no mismatch. -/
def Obligations.FrameThenDeframe : Prop :=
  ∀ (s t u : State) (L K : Latch) (i : Instr), s.params.Legal → Memory.wf s.buf → s.latch = some L →
    ChecksPass .bframe L s.params.bufBytes → exec .bframe s = .next t →
    (i = .bdeframe ∨ i = .bdeframeS) → u.params = s.params → u.buf = t.buf → u.latch = some K →
    K.srcAddr = L.dstAddr → K.srcLen.toNat = 16 * L.srcLen.toNat → ChecksPass i K u.params.bufBytes →
    ∃ v, exec i u = .next v ∧ CompletedWith u v L.srcLen.toNat 0 0xFFFFFFFF#32 false ∧
      ∀ j < L.srcLen.toNat, Memory.read v.buf (K.dstAddr.toNat + j) = Memory.read s.buf (L.srcAddr.toNat + j)

/-! ## Raster -/

/-- R161, R162, and R160 when its checks pass: RENDER completes with RESULT_LEN W × H; pixel (x, y) is 255 times the stream bit of its block, 0
past the stream's end; so every pixel is 0 or 255; every byte outside the frame is as before. -/
def Obligations.RenderResult : Prop :=
  ∀ (s : State) (L : Latch) (S D W H BS Lb i : Nat), s.latch = some L → s.params.Legal → Memory.wf s.buf →
    S = L.srcAddr.toNat → D = L.dstAddr.toNat → W = L.frameW.toNat → H = L.frameH.toNat → BS = L.blockSize.toNat →
    Lb = L.srcLen.toNat → i = L.frameIndex.toNat → ChecksPass .render L s.params.bufBytes →
    ∃ t, exec .render s = .next t ∧ CompletedWith s t (W * H) 0 0xFFFFFFFF#32 false ∧ KeepsRest s t ∧
      OnlyWrites s t D (W * H) ∧
      ∀ x y, x < W → y < H →
        (Memory.read t.buf (D + y * W + x)).toNat =
          255 * (if i * ((W / BS) * (H / BS)) + (y / BS) * (W / BS) + x / BS < Lb then
              bitRead s.buf S (i * ((W / BS) * (H / BS)) + (y / BS) * (W / BS) + x / BS)
            else false).toNat

/-- R166, and R165 when its checks pass: EXTRACT completes with RESULT_LEN (i+1)·bpf; the bit of block (r, c) is 1 exactly when the block's pixel
sum is above 127·BS·BS; every other bit of the destination stream, the shared bits of the boundary bytes among them, and
every byte below it is as before. -/
def Obligations.ExtractResult : Prop :=
  ∀ (s : State) (L : Latch) (S D W H BS i bpf : Nat), s.latch = some L → s.params.Legal → Memory.wf s.buf →
    S = L.srcAddr.toNat → D = L.dstAddr.toNat → W = L.frameW.toNat → H = L.frameH.toNat → BS = L.blockSize.toNat →
    i = L.frameIndex.toNat → bpf = (W / BS) * (H / BS) → ChecksPass .extract L s.params.bufBytes →
    ∃ t, exec .extract s = .next t ∧ CompletedWith s t ((i + 1) * bpf) 0 0xFFFFFFFF#32 false ∧ KeepsRest s t ∧
      (∀ r c, r < H / BS → c < W / BS →
        bitRead t.buf D (i * bpf + r * (W / BS) + c) =
          decide (127 * BS * BS < ∑ dy ∈ Finset.range BS, ∑ dx ∈ Finset.range BS,
            (Memory.read s.buf (S + (r * BS + dy) * W + (c * BS + dx))).toNat)) ∧
      (∀ k, k < i * bpf ∨ (i + 1) * bpf ≤ k → bitRead t.buf D k = bitRead s.buf D k) ∧
      (∀ a < D, Memory.read t.buf a = Memory.read s.buf a)

/-- 42_raster.md, EXTRACT (R168): whatever a block's pixels are, if all are above 127 its bit is 1, and if none is, its
bit is 0. -/
def Obligations.ExtractDriftTolerance : Prop :=
  ∀ (s : State) (L : Latch) (W BS bpf r c : Nat), s.latch = some L → s.params.Legal → Memory.wf s.buf →
    W = L.frameW.toNat → BS = L.blockSize.toNat → bpf = (W / BS) * (L.frameH.toNat / BS) →
    r < L.frameH.toNat / BS → c < W / BS → ChecksPass .extract L s.params.bufBytes →
    ∃ t, exec .extract s = .next t ∧
      ((∀ dy dx, dy < BS → dx < BS →
          127 < (Memory.read s.buf (L.srcAddr.toNat + (r * BS + dy) * W + (c * BS + dx))).toNat) →
        bitRead t.buf L.dstAddr.toNat (L.frameIndex.toNat * bpf + r * (W / BS) + c) = true) ∧
      ((∀ dy dx, dy < BS → dx < BS →
          (Memory.read s.buf (L.srcAddr.toNat + (r * BS + dy) * W + (c * BS + dx))).toNat ≤ 127) →
        bitRead t.buf L.dstAddr.toNat (L.frameIndex.toNat * bpf + r * (W / BS) + c) = false)

/-- R167: RENDER of frame i, then EXTRACT of the resulting frame with the same geometry and index, writes back bits i·bpf
to (i+1)·bpf - 1 of the stream, padding read back as 0. -/
def Obligations.RenderThenExtract : Prop :=
  ∀ (s t u : State) (L K : Latch) (k bpf : Nat), s.params.Legal → Memory.wf s.buf → s.latch = some L →
    ChecksPass .render L s.params.bufBytes → exec .render s = .next t →
    u.params = s.params → u.buf = t.buf → u.latch = some K →
    K.frameW = L.frameW → K.frameH = L.frameH → K.blockSize = L.blockSize → K.frameIndex = L.frameIndex →
    K.srcAddr = L.dstAddr → ChecksPass .extract K u.params.bufBytes →
    bpf = (L.frameW.toNat / L.blockSize.toNat) * (L.frameH.toNat / L.blockSize.toNat) →
    L.frameIndex.toNat * bpf ≤ k → k < (L.frameIndex.toNat + 1) * bpf →
    ∃ v, exec .extract u = .next v ∧
      bitRead v.buf K.dstAddr.toNat k = if k < L.srcLen.toNat then bitRead s.buf L.srcAddr.toNat k else false

/-- 42_raster.md, EXTRACT (R169): EXTRACT of another frame with the same destination and geometry leaves the bits of a
frame already extracted alone, whichever of the two came first. -/
def Obligations.ExtractKeepsOtherFrames : Prop :=
  ∀ (s t : State) (L : Latch) (i k bpf : Nat), Memory.wf s.buf → s.latch = some L →
    exec .extract s = .next t →
    bpf = (L.frameW.toNat / L.blockSize.toNat) * (L.frameH.toNat / L.blockSize.toNat) →
    i ≠ L.frameIndex.toNat → i * bpf ≤ k → k < (i + 1) * bpf →
    bitRead t.buf L.dstAddr.toNat k = bitRead s.buf L.dstAddr.toNat k

/-! ## Payload -/

/-- R182, and R180 when its checks pass: PFRAME of metadata without 0x0A completes with RESULT_LEN m + 1 + a; the destination holds the metadata,
0x0A, the archive; its first 0x0A is at offset m; every other byte is as before. -/
def Obligations.PframeResult : Prop :=
  ∀ (s : State) (L : Latch) (S S2 D m a : Nat), s.latch = some L → s.params.Legal → Memory.wf s.buf →
    S = L.srcAddr.toNat → S2 = L.src2Addr.toNat → D = L.dstAddr.toNat → m = L.srcLen.toNat → a = L.src2Len.toNat →
    ChecksPass .pframe L s.params.bufBytes → (∀ j < m, Memory.read s.buf (S + j) ≠ 0x0A#8) →
    ∃ t, exec .pframe s = .next t ∧ CompletedWith s t (m + 1 + a) 0 0xFFFFFFFF#32 false ∧ KeepsRest s t ∧
      OnlyWrites s t D (m + 1 + a) ∧
      (∀ j < m, Memory.read t.buf (D + j) = Memory.read s.buf (S + j)) ∧
      Memory.read t.buf (D + m) = 0x0A#8 ∧
      (∀ j < a, Memory.read t.buf (D + m + 1 + j) = Memory.read s.buf (S2 + j)) ∧
      (∀ j < m, Memory.read t.buf (D + j) ≠ 0x0A#8)

/-- R206: PFRAME raises SENTINEL when a metadata byte is 0x0A (its common checks passed), and then writes no payload
byte. -/
def Obligations.PframeRejectsSentinel : Prop :=
  ∀ (s : State) (L : Latch) (j : Nat), s.latch = some L → ChecksPass .pframe L s.params.bufBytes →
    j < L.srcLen.toNat → Memory.read s.buf (L.srcAddr.toNat + j) = 0x0A#8 →
    ∃ t, exec .pframe s = .next t ∧ FailedWith s t .sentinel ∧ KeepsRest s t

/-- R207, and R184 when its range is in BUF: PSPLIT of a payload whose first 0x0A is at offset k completes with RESULT_LEN k and RESULT_AUX n - k - 1;
of a payload without one it raises FRAMING; it writes no BUF byte either way. -/
def Obligations.PsplitResult : Prop :=
  ∀ (s : State) (L : Latch) (S n : Nat), s.latch = some L → s.params.Legal → S = L.srcAddr.toNat →
    n = L.srcLen.toNat → ChecksPass .psplit L s.params.bufBytes →
    (∀ k < n, Memory.read s.buf (S + k) = 0x0A#8 → (∀ j < k, Memory.read s.buf (S + j) ≠ 0x0A#8) →
      ∃ t, exec .psplit s = .next t ∧ CompletedWith s t k (n - k - 1) 0xFFFFFFFF#32 false ∧ KeepsRest s t ∧
        t.buf = s.buf) ∧
    ((∀ k < n, Memory.read s.buf (S + k) ≠ 0x0A#8) →
      ∃ t, exec .psplit s = .next t ∧ FailedWith s t .framing ∧ KeepsRest s t)

/-- R186: PSPLIT of what a successful PFRAME wrote reports the lengths of the metadata and of the archive, and the
reported ranges hold them unchanged. -/
def Obligations.PayloadRoundTrip : Prop :=
  ∀ (s t u : State) (L K : Latch), s.params.Legal → Memory.wf s.buf → s.latch = some L →
    exec .pframe s = .next t → t.regs.status.err = false →
    u.params = s.params → u.buf = t.buf → u.latch = some K →
    K.srcAddr = L.dstAddr → K.srcLen = t.regs.resultLen →
    ∃ v, exec .psplit u = .next v ∧
      CompletedWith u v L.srcLen.toNat L.src2Len.toNat 0xFFFFFFFF#32 false ∧
      (∀ j < L.srcLen.toNat,
        Memory.read v.buf (K.srcAddr.toNat + j) = Memory.read s.buf (L.srcAddr.toNat + j)) ∧
      (∀ j < L.src2Len.toNat,
        Memory.read v.buf (K.srcAddr.toNat + L.srcLen.toNat + 1 + j) = Memory.read s.buf (L.src2Addr.toNat + j))

/-! ## The whole machine -/

/-- Every step keeps BUF in its canonical form and inside its BUF_BYTES bytes (20_memory.md R60). -/
def Obligations.StepKeepsBufOk : Prop :=
  ∀ s t : State, s.BufOk → step s = .next t → t.BufOk

/-- Every step keeps the machine's invariant: legal parameters, a well-formed BUF, BUSY = 1 exactly when a command is
latched (10_state.md R33, R51), and flags that agree with one another (R34 to R38). -/
def Obligations.StepKeepsInvariant : Prop :=
  ∀ s t : State, s.Inv → step s = .next t → t.Inv

/-- The invariant holds after power-on reset: of the model's reset state (its parameters and BUF are the model's choice,
notes/assumptions/1.md and 2.md), and of every launch state with legal parameters and a well-formed BUF. -/
def Obligations.ResetMeetsInvariant : Prop :=
  State.reset.Inv ∧
  ∀ (p : Params) (m : Memory), p.Legal → Memory.wf m → Memory.within p.bufBytes m → (State.launch p m).Inv

/-- The fault record is set only by a host BUF access while BUSY = 1 and never cleared, not even by a reset
(70_reset_and_hazards.md I1, J1: R231, R240); the parameters never change. -/
def Obligations.FaultOnlyByHazardNeverCleared : Prop :=
  ∀ s t : State, step s = .next t →
    t.params = s.params ∧ (∀ f, s.fault = some f → t.fault = some f) ∧
    (t.fault ≠ s.fault →
      s.mover = .host ∧ s.regs.status.busy = true ∧ ∃ a, a < s.params.bufBytes ∧ s.hostTouchesBuf a)

/-- 40_command_lifecycle.md, progress (R125): once enabled, the engine step stays enabled until it is taken: only the engine's own step, which completes the
command, or a reset empties the latch; and the engine step of a latched command is always a next state. Whose step it is
is said by the schedule (notes/assumptions/3.md, the model's choice). -/
def Obligations.EngineStepStaysEnabled : Prop :=
  (∀ (s t : State) (L : Latch), s.LatchOk → s.latch = some L → step s = .next t →
    t.latch = some L ∨ (t.latch = none ∧ s.mover = .reset) ∨
      (t.latch = none ∧ s.mover = .engine ∧ t.regs.status.done = true ∧ t.regs.status.busy = false)) ∧
  (∀ (s : State) (L : Latch), s.latch = some L → s.mover = .engine →
    ∃ t, step s = .next t ∧ t.latch = none ∧ t.regs.status.done = true ∧ t.regs.status.busy = false)

/-- 70_reset_and_hazards.md J1 (R242): from the step that issues a command until the step that ends it, the result
registers keep the previous command's values; between the two, BUF stays as well. -/
def Obligations.ResultsHeldWhileBusy : Prop :=
  ∀ s t : State, step s = .next t → t.regs.status.busy = true →
    t.regs.resultLen = s.regs.resultLen ∧ t.regs.resultAux = s.regs.resultAux ∧
    t.regs.firstMism = s.regs.firstMism ∧ (s.regs.status.busy = true → t.buf = s.buf)

/-- 60_exceptions.md H1 to H6 (R220): while no command is latched the engine changes nothing; and where a run has ended
(70_reset_and_hazards.md R249) with no command latched, the host's turn changes nothing at all. That an agent with nothing
to do has a turn which answers the same state is the model's choice (notes/assumptions/12.md: R115 gives the engine no
step there), and so is that the host moves when the schedule is empty (notes/assumptions/3.md). -/
def Obligations.IdleBlockKeepsState : Prop :=
  (∀ s : State, s.latch = none → engineTurn s = .next s) ∧
  (∀ s : State, s.latch = none → s.sched = [] → s.RunEnded → step s = .next s)

/-- R169: EXTRACTs of frames 0 to T - 1, each once, in any order, with one DST_ADDR and one geometry, leave the
concatenation of the frames' bits in index order. `ss j` is the state in which the j-th EXTRACT runs, `ts j` the one it
leaves, `f j` its FRAME_INDEX; between two EXTRACTs anything may happen that leaves the stream's bits alone (the next
frame is written to BUF). Every bit of the stream is the bit of its block in the frame that was read. -/
def Obligations.ExtractedFramesConcatenate : Prop :=
  ∀ (T : Nat) (ss ts : Nat → State) (Ls : Nat → Latch) (f : Nat → Nat) (D W H BS bpf : Nat),
    bpf = (W / BS) * (H / BS) →
    (∀ j < T, (ss j).params.Legal ∧ Memory.wf (ss j).buf ∧ (ss j).latch = some (Ls j) ∧
      D = (Ls j).dstAddr.toNat ∧ W = (Ls j).frameW.toNat ∧ H = (Ls j).frameH.toNat ∧
      BS = (Ls j).blockSize.toNat ∧ f j = (Ls j).frameIndex.toNat ∧ f j < T ∧
      exec .extract (ss j) = .next (ts j) ∧ (ts j).regs.status.err = false) →
    (∀ j < T, ∀ j' < T, f j = f j' → j = j') →
    (∀ j, j + 1 < T → ∀ k < T * bpf, bitRead (ss (j + 1)).buf D k = bitRead (ts j).buf D k) →
    ∀ p < T, ∃ j < T, f j = p ∧
      ∀ r c, r < H / BS → c < W / BS →
        bitRead (ts (T - 1)).buf D (p * bpf + r * (W / BS) + c) =
          decide (127 * BS * BS < ∑ dy ∈ Finset.range BS, ∑ dx ∈ Finset.range BS,
            (Memory.read (ss j).buf ((Ls j).srcAddr.toNat + (r * BS + dy) * W + (c * BS + dx))).toNat)
end

