-- ==== Sys2Proof/Laws/Memory.lean ====
section
/-! SUPPORT. What reading and writing BUF can do: read after write, the canonical form is kept, and memories that read
alike are equal. -/

namespace Sys2Proof.Machine

@[simp] theorem Memory.read_nil (a : Nat) : Memory.read [] a = Memory.unlisted := rfl

@[simp] theorem Memory.read_cons (b : Nat) (v : Byte) (m : Memory) (a : Nat) :
    Memory.read ((b, v) :: m) a = if a = b then v else Memory.read m a := rfl

/-- An address below every entry is unlisted. -/
theorem Memory.read_of_lt {m : Memory} {a : Nat} (h : ∀ c ∈ m, a < c.1) : Memory.read m a = Memory.unlisted := by
  induction m with
  | nil => rfl
  | cons c m ih =>
    have hc := h c (by simp)
    rw [show c = (c.1, c.2) from rfl, Memory.read_cons, if_neg (by omega)]
    exact ih fun d hd => h d (by simp [hd])

theorem Memory.wf_nil : Memory.wf [] := by simp [Memory.wf]

theorem Memory.wf_cons {b : Nat} {v : Byte} {m : Memory} :
    Memory.wf ((b, v) :: m) ↔ (∀ c ∈ m, b < c.1) ∧ v ≠ Memory.unlisted ∧ Memory.wf m := by
  simp only [Memory.wf, List.pairwise_cons, List.mem_cons, forall_eq_or_imp]
  tauto

/-- An entry of the memory after a write is the written cell or an entry from before. -/
theorem Memory.mem_write {m : Memory} {a : Nat} {v : Byte} {c : Host.Cell} (h : c ∈ Memory.write m a v) :
    c = (a, v) ∨ c ∈ m := by
  induction m with
  | nil => simp only [Memory.write] at h; split at h <;> simp_all
  | cons d m ih =>
    obtain ⟨b, u⟩ := d
    simp only [Memory.write] at h
    split at h
    · split at h <;> simp_all
    · split at h
      · split at h <;> simp_all; tauto
      · simp only [List.mem_cons] at h ⊢; tauto

/-- A write keeps the canonical form. -/
theorem Memory.wf_write {m : Memory} (h : Memory.wf m) (a : Nat) (v : Byte) : Memory.wf (Memory.write m a v) := by
  induction m with
  | nil => simp only [Memory.write]; split <;> simp_all [Memory.wf]
  | cons d m ih =>
    obtain ⟨b, u⟩ := d
    obtain ⟨hlt, hu, hm⟩ := Memory.wf_cons.1 h
    simp only [Memory.write]
    split
    · rename_i hab
      split
      · exact h
      · rename_i hv
        refine Memory.wf_cons.2 ⟨?_, hv, h⟩
        intro c hc
        rcases List.mem_cons.1 hc with rfl | hc
        · exact hab
        · exact lt_trans hab (hlt c hc)
    · split
      · rename_i hab
        subst hab
        split
        · exact hm
        · rename_i hv; exact Memory.wf_cons.2 ⟨hlt, hv, hm⟩
      · refine Memory.wf_cons.2 ⟨?_, hu, ih hm⟩
        intro c hc
        rcases Memory.mem_write hc with rfl | hc
        · show b < a; omega
        · exact hlt c hc

/-- A write inside BUF keeps every entry inside BUF. -/
theorem Memory.within_write {n : Nat} {m : Memory} (h : Memory.within n m) {a : Nat} (ha : a < n) (v : Byte) :
    Memory.within n (Memory.write m a v) := by
  intro c hc
  rcases Memory.mem_write hc with rfl | hc
  · exact ha
  · exact h c hc

/-- A read of the address just written gives the byte written. -/
theorem Memory.read_write_same {m : Memory} (h : Memory.wf m) (a : Nat) (v : Byte) :
    Memory.read (Memory.write m a v) a = v := by
  induction m with
  | nil => simp only [Memory.write]; split <;> simp_all
  | cons d m ih =>
    obtain ⟨b, u⟩ := d
    obtain ⟨hlt, hu, hm⟩ := Memory.wf_cons.1 h
    simp only [Memory.write]
    split
    · rename_i hab
      split
      · rename_i hv
        rw [hv]
        refine Memory.read_of_lt ?_
        intro c hc
        rcases List.mem_cons.1 hc with rfl | hc
        · exact hab
        · exact lt_trans hab (hlt c hc)
      · simp
    · split
      · rename_i hab
        subst hab
        split
        · rename_i hv; rw [hv]; exact Memory.read_of_lt hlt
        · simp
      · rename_i hne; rw [Memory.read_cons, if_neg hne]; exact ih hm

/-- A write leaves every other address alone. -/
theorem Memory.read_write_other {m : Memory} {a b : Nat} (hab : b ≠ a) (v : Byte) :
    Memory.read (Memory.write m a v) b = Memory.read m b := by
  induction m with
  | nil => simp only [Memory.write]; split <;> simp [hab]
  | cons d m ih =>
    obtain ⟨c, u⟩ := d
    simp only [Memory.write]
    split
    · split <;> simp [hab]
    · split
      · rename_i hac
        subst hac
        split <;> simp [hab]
      · simp [ih]

/-- Both laws of a read after a write in one. -/
theorem Memory.read_write {m : Memory} (h : Memory.wf m) (a b : Nat) (v : Byte) :
    Memory.read (Memory.write m a v) b = if b = a then v else Memory.read m b := by
  split
  · rename_i hab; subst hab; exact Memory.read_write_same h _ v
  · rename_i hab; exact Memory.read_write_other hab v

@[simp] theorem Memory.writeAll_nil (m : Memory) : Memory.writeAll m [] = m := rfl

@[simp] theorem Memory.writeAll_cons (m : Memory) (c : Host.Cell) (ws : List Host.Cell) :
    Memory.writeAll m (c :: ws) = Memory.writeAll (Memory.write m c.1 c.2) ws := rfl

theorem Memory.writeAll_append (m : Memory) (ws vs : List Host.Cell) :
    Memory.writeAll m (ws ++ vs) = Memory.writeAll (Memory.writeAll m ws) vs := by
  simp [Memory.writeAll, List.foldl_append]

/-- The writes of a command keep the canonical form. -/
theorem Memory.wf_writeAll {m : Memory} (h : Memory.wf m) (ws : List Host.Cell) :
    Memory.wf (Memory.writeAll m ws) := by
  induction ws generalizing m with
  | nil => exact h
  | cons c ws ih => exact ih (Memory.wf_write h c.1 c.2)

/-- Writes inside BUF keep every entry inside BUF. -/
theorem Memory.within_writeAll {n : Nat} {m : Memory} (h : Memory.within n m) {ws : List Host.Cell}
    (hws : ∀ c ∈ ws, c.1 < n) : Memory.within n (Memory.writeAll m ws) := by
  induction ws generalizing m with
  | nil => exact h
  | cons c ws ih =>
    exact ih (Memory.within_write h (hws c (by simp)) c.2) fun d hd => hws d (by simp [hd])

/-- An address that no cell of the writes names reads as before. -/
theorem Memory.read_writeAll_other {m : Memory} {ws : List Host.Cell} {a : Nat} (h : ∀ c ∈ ws, c.1 ≠ a) :
    Memory.read (Memory.writeAll m ws) a = Memory.read m a := by
  induction ws generalizing m with
  | nil => rfl
  | cons c ws ih =>
    rw [Memory.writeAll_cons, ih fun d hd => h d (by simp [hd]),
      Memory.read_write_other (Ne.symm (h c (by simp)))]

/-- An address that the writes name reads as the byte of some cell that names it; where all cells of that address
agree, that byte is the value read. -/
theorem Memory.read_writeAll_mem {m : Memory} (hm : Memory.wf m) {ws : List Host.Cell} {a : Nat} {v : Byte}
    (h : (a, v) ∈ ws) (hu : ∀ c ∈ ws, c.1 = a → c.2 = v) : Memory.read (Memory.writeAll m ws) a = v := by
  induction ws generalizing m with
  | nil => simp at h
  | cons c ws ih =>
    rw [Memory.writeAll_cons]
    by_cases hr : (a, v) ∈ ws
    · exact ih (Memory.wf_write hm _ _) hr fun d hd => hu d (by simp [hd])
    · rcases List.mem_cons.1 h with rfl | h'
      · rw [Memory.read_writeAll_other, Memory.read_write_same hm]
        intro d hd hda
        exact hr (by have := hu d (by simp [hd]) hda; rw [← hda, ← this]; exact hd)
      · exact absurd h' hr

/-- The byte read at a named address is the byte of some cell of the writes. -/
theorem Memory.read_writeAll_exists {m : Memory} (hm : Memory.wf m) {ws : List Host.Cell} {a : Nat}
    (h : ∃ c ∈ ws, c.1 = a) : ∃ c ∈ ws, c.1 = a ∧ Memory.read (Memory.writeAll m ws) a = c.2 := by
  induction ws generalizing m with
  | nil => obtain ⟨c, hc, _⟩ := h; simp at hc
  | cons d ws ih =>
    by_cases hr : ∃ c ∈ ws, c.1 = a
    · obtain ⟨c, hc, hca, e⟩ := ih (Memory.wf_write hm d.1 d.2) hr
      exact ⟨c, by simp [hc], hca, e⟩
    · obtain ⟨c, hc, hca⟩ := h
      rcases List.mem_cons.1 hc with rfl | hc
      · refine ⟨c, by simp, hca, ?_⟩
        rw [Memory.writeAll_cons, Memory.read_writeAll_other, ← hca, Memory.read_write_same hm]
        intro e he hea
        exact hr ⟨e, he, hea⟩
      · exact absurd ⟨c, hc, hca⟩ hr

/-- A block of bytes written in order at distinct addresses: inside it reads the byte written, outside as before. -/
theorem Memory.read_writeAll_block {m : Memory} (hm : Memory.wf m) (D n : Nat) (f : Nat → Byte) (a : Nat) :
    Memory.read (Memory.writeAll m ((List.range n).map fun j => (D + j, f j))) a =
      if D ≤ a ∧ a < D + n then f (a - D) else Memory.read m a := by
  split
  · rename_i h
    refine Memory.read_writeAll_mem hm ?_ ?_
    · exact List.mem_map.2 ⟨a - D, by simp; omega, by simp; omega⟩
    · intro c hc hca
      obtain ⟨j, _, rfl⟩ := List.mem_map.1 hc
      simp only at hca ⊢
      congr 1; omega
  · rename_i h
    refine Memory.read_writeAll_other ?_
    intro c hc hca
    obtain ⟨j, hj, rfl⟩ := List.mem_map.1 hc
    simp at hj hca
    omega

/-- Two canonical memories that read alike are equal. -/
theorem Memory.ext {m k : Memory} (hm : Memory.wf m) (hk : Memory.wf k)
    (h : ∀ a, Memory.read m a = Memory.read k a) : m = k := by
  induction m generalizing k with
  | nil =>
    cases k with
    | nil => rfl
    | cons d k =>
      obtain ⟨b, u⟩ := d
      have := h b
      simp at this
      exact absurd this.symm (Memory.wf_cons.1 hk).2.1
  | cons c m ih =>
    obtain ⟨a, v⟩ := c
    obtain ⟨hlt, hv, hm'⟩ := Memory.wf_cons.1 hm
    cases k with
    | nil => have := h a; simp at this; exact absurd this hv
    | cons d k =>
      obtain ⟨b, u⟩ := d
      obtain ⟨hlt', hu, hk'⟩ := Memory.wf_cons.1 hk
      have hab : a = b := by
        rcases lt_trichotomy a b with hl | he | hg
        · have := h a
          rw [Memory.read_cons, if_pos rfl, Memory.read_of_lt (m := (b, u) :: k)] at this
          · exact absurd this hv
          · intro c hc
            rcases List.mem_cons.1 hc with rfl | hc
            · exact hl
            · exact lt_trans hl (hlt' c hc)
        · exact he
        · have := h b
          rw [Memory.read_cons b, if_pos rfl, Memory.read_of_lt (m := (a, v) :: m)] at this
          · exact absurd this.symm hu
          · intro c hc
            rcases List.mem_cons.1 hc with rfl | hc
            · exact hg
            · exact lt_trans hg (hlt c hc)
      subst hab
      have huv : v = u := by have := h a; simpa using this
      subst huv
      congr 1
      refine ih hm' hk' fun x => ?_
      have := h x
      simp only [Memory.read_cons] at this
      by_cases hx : x = a
      · subst hx; rw [Memory.read_of_lt hlt, Memory.read_of_lt hlt']
      · simpa [hx] using this

/-- Bit `p` of a byte after a BitWrite into it. -/
theorem setBit_getLsbD (v : Byte) {p q : Nat} (hp : p < 8) (hq : q < 8) (b : Bool) :
    (setBit v p b).getLsbD q = if q = p then b else v.getLsbD q := by
  have h : ∀ p < 8, ∀ q < 8, ∀ b : Bool, ∀ x : Bool,
      ((x && (decide (q < 8) && !(decide (q < 8) && !decide (q < p) && (1#8).getLsbD (q - p)))) ||
        (decide (q < 8) && !decide (q < p) && ((BitVec.ofBool b).setWidth 8).getLsbD (q - p))) =
      if q = p then b else x := by decide
  simpa [setBit, BitVec.getLsbD_or, BitVec.getLsbD_and, BitVec.getLsbD_not, BitVec.getLsbD_shiftLeft]
    using h p hp q hq b (v.getLsbD q)

/-- A BitWrite changes bit `k` of the string at `A`, and no other bit of it. -/
theorem bitRead_bitWrite {m : Memory} (hm : Memory.wf m) (A k j : Nat) (b : Bool) :
    bitRead (bitWrite m A k b) A j = if j = k then b else bitRead m A j := by
  unfold bitRead bitWrite
  rw [Memory.read_write hm]
  by_cases h : A + j / 8 = A + k / 8
  · rw [if_pos h, setBit_getLsbD _ (by omega) (by omega)]
    by_cases hjk : j = k
    · subst hjk; simp
    · rw [if_neg (by omega), if_neg hjk, h]
  · rw [if_neg h, if_neg (by rintro rfl; exact h rfl)]

/-- A BitWrite into the string at `A` leaves every byte below `A` alone. -/
theorem read_bitWrite_below {m : Memory} (A k : Nat) (b : Bool) {a : Nat} (ha : a < A) :
    Memory.read (bitWrite m A k b) a = Memory.read m a := by
  unfold bitWrite; exact Memory.read_write_other (by omega) _

theorem Memory.wf_bitWrite {m : Memory} (hm : Memory.wf m) (A k : Nat) (b : Bool) :
    Memory.wf (bitWrite m A k b) := Memory.wf_write hm _ _

end Sys2Proof.Machine
end

