-- ==== Sys2Proof/Laws/Bits.lean ====
section
/-! SUPPORT. Bit strings stored in BUF: the value of eight bits, a packed byte, the byte form of a chunk and of the
check-augmented stream (20_memory.md R64, 41_bitframing.md R141). -/

namespace Sys2Proof.Machine

/-- The bits of the value of an eight-bit string: index `t` is bit 7 - t (00_scope.md R9). -/
theorem byteOfBits_getLsbD (f : Nat → Bool) {t : Nat} (ht : t < 8) :
    (byteOfBits ((List.range 8).map f)).getLsbD (7 - t) = f t := by
  have key : ∀ b0 b1 b2 b3 b4 b5 b6 b7 : Bool, ∀ t < 8,
      (byteOfBits [b0, b1, b2, b3, b4, b5, b6, b7]).getLsbD (7 - t) = [b0, b1, b2, b3, b4, b5, b6, b7].getD t false := by
    decide
  have hr : (List.range 8).map f = [f 0, f 1, f 2, f 3, f 4, f 5, f 6, f 7] := by
    simp [List.range_succ]
  rw [hr, key _ _ _ _ _ _ _ _ t ht]
  interval_cases t <;> rfl

/-- The value of the eight bits of a byte, most significant first, is the byte. -/
theorem byteOfBits_bits (v : Byte) : byteOfBits ((List.range 8).map fun t => v.getLsbD (7 - t)) = v := by
  apply BitVec.eq_of_getLsbD_eq
  intro i hi
  have := byteOfBits_getLsbD (fun t => v.getLsbD (7 - t)) (t := 7 - i) (by omega)
  rw [show 7 - (7 - i) = i by omega] at this
  exact this

@[simp] theorem binary8_length (v : Byte) : (binary8 v).length = 8 := by simp [binary8]

/-- Index `t` of binary8(v) is bit 7 - t (00_scope.md R9). -/
theorem binary8_getD (v : Byte) {t : Nat} (ht : t < 8) : (binary8 v).getD t false = v.getLsbD (7 - t) := by
  simp [binary8, List.getD, ht]

/-- The value of binary8(v) is v (20_memory.md R64). -/
theorem byteOfBits_binary8 (v : Byte) : byteOfBits (binary8 v) = v := byteOfBits_bits v

/-- Bits [8q, 8q + 8) of the string at `A` are byte `A + q` (20_memory.md R64). -/
theorem byteOfBits_readBits (m : Memory) (A q : Nat) : byteOfBits (readBits m A (8 * q) 8) = Memory.read m (A + q) := by
  unfold readBits bitRead
  have h : (List.range 8).map (fun t => (Memory.read m (A + (8 * q + t) / 8)).getLsbD (7 - (8 * q + t) % 8)) =
      (List.range 8).map (fun t => (Memory.read m (A + q)).getLsbD (7 - t)) := by
    refine List.map_congr_left fun t ht => ?_
    have ht' : t < 8 := by simpa using ht
    rw [show (8 * q + t) / 8 = q by omega, show (8 * q + t) % 8 = t by omega]
  rw [h, byteOfBits_bits]

/-- chunk[0, 8) of chunk j is byte S + 2j (41_bitframing.md R143). -/
theorem chunkByte_eq (m : Memory) (S j : Nat) : chunkByte m S j = Memory.read m (S + 2 * j) := by
  unfold chunkByte
  rw [show 16 * j = 8 * (2 * j) by omega, byteOfBits_readBits]

/-- chunk[8, 16) of chunk j is byte S + 2j + 1 (41_bitframing.md R146). -/
theorem chunkCheck_eq (m : Memory) (S j : Nat) : chunkCheck m S j = Memory.read m (S + 2 * j + 1) := by
  unfold chunkCheck
  rw [show 16 * j + 8 = 8 * (2 * j + 1) by omega, byteOfBits_readBits, ← add_assoc]

/-- Bit `t` of a packed byte (20_memory.md R64). -/
theorem packedByte_getLsbD (s : List Bool) (q : Nat) {t : Nat} (ht : t < 8) :
    (packedByte s q).getLsbD (7 - t) = s.getD (8 * q + t) false := byteOfBits_getLsbD _ ht

/-- What BUF holds after a bit string was stored at `A` (20_memory.md R64). -/
theorem read_storeBits {m : Memory} (hm : Memory.wf m) (A : Nat) (s : List Bool) (a : Nat) :
    Memory.read (Memory.writeAll m (storeBits A s)) a =
      if A ≤ a ∧ a < A + ceilDiv s.length 8 then packedByte s (a - A) else Memory.read m a :=
  Memory.read_writeAll_block hm A _ (packedByte s) a

/-- Bit k of a stored bit string, for every k of the bytes it occupies (20_memory.md R64). -/
theorem bitRead_storeBits {m : Memory} (hm : Memory.wf m) (A : Nat) (s : List Bool) {k : Nat}
    (hk : k < 8 * ceilDiv s.length 8) :
    bitRead (Memory.writeAll m (storeBits A s)) A k = s.getD k false := by
  unfold bitRead
  rw [read_storeBits hm, if_pos (by omega), show A + k / 8 - A = k / 8 by omega, packedByte_getLsbD _ _ (by omega)]
  congr 1; omega

/-- A flattened list of blocks of one length, read by block and place. -/
theorem flatMap_getD {α : Type} {n w : Nat} {f : Nat → List α} (hf : ∀ j, (f j).length = w) (d : α) {j t : Nat}
    (hj : j < n) (ht : t < w) : ((List.range n).flatMap f).getD (w * j + t) d = (f j).getD t d := by
  induction n with
  | zero => omega
  | succ n ih =>
    have hlen : ((List.range n).flatMap f).length = w * n := by
      simp [List.length_flatMap, hf, Nat.mul_comm]
    rw [List.range_succ, List.flatMap_append]
    by_cases hjn : j < n
    · rw [List.getD_append _ _ _ _ (by rw [hlen]; nlinarith), ih hjn]
    · have : j = n := by omega
      subst this
      rw [List.getD_append_right _ _ _ _ (by rw [hlen]; omega), hlen, Nat.add_sub_cancel_left]
      simp

@[simp] theorem frameStream_length (m : Memory) (S n : Nat) : (frameStream m S n).length = 16 * n := by
  simp [frameStream, List.length_flatMap, Nat.mul_comm]

/-- Chunk j of the check-augmented stream: the byte's bits, then its check byte's bits (41_bitframing.md R140). -/
theorem frameStream_getD (m : Memory) (S n : Nat) {j t : Nat} (hj : j < n) (ht : t < 16) :
    (frameStream m S n).getD (16 * j + t) false =
      if t < 8 then (Memory.read m (S + j)).getLsbD (7 - t)
      else (checkByte (Memory.read m (S + j))).getLsbD (7 - (t - 8)) := by
  unfold frameStream
  rw [flatMap_getD (w := 16) (fun j => by simp) false hj ht]
  split
  · rw [List.getD_append _ _ _ _ (by simpa), binary8_getD _ (by assumption)]
  · rw [List.getD_append_right _ _ _ _ (by simp; omega), binary8_length, binary8_getD _ (by omega)]

/-- The packed bytes of the check-augmented stream: a payload byte, then its check byte (41_bitframing.md R141). -/
theorem packedByte_frameStream (m : Memory) (S n : Nat) {q : Nat} (hq : q < 2 * n) :
    packedByte (frameStream m S n) q =
      if q % 2 = 0 then Memory.read m (S + q / 2) else checkByte (Memory.read m (S + q / 2)) := by
  unfold packedByte
  have hbit : ∀ t < 8, (frameStream m S n).getD (8 * q + t) false =
      (if q % 2 = 0 then Memory.read m (S + q / 2) else checkByte (Memory.read m (S + q / 2))).getLsbD (7 - t) := by
    intro t ht
    have hpos : 8 * q + t = 16 * (q / 2) + (8 * (q % 2) + t) := by omega
    rw [hpos, frameStream_getD m S n (by omega) (by omega)]
    rcases Nat.mod_two_eq_zero_or_one q with h | h
    · rw [if_pos (by omega), if_pos h]; congr 1; omega
    · rw [if_neg (by omega), if_neg (by omega)]; congr 1; omega
  rw [List.map_congr_left (g := fun t => (if q % 2 = 0 then Memory.read m (S + q / 2)
    else checkByte (Memory.read m (S + q / 2))).getLsbD (7 - t)) fun t ht => hbit t (by simpa using ht)]
  exact byteOfBits_bits _

/-- popcount of a byte is at most 8 (00_scope.md R10). -/
theorem popcount_le (v : Byte) : popcount v ≤ 8 := by
  simp only [popcount, List.range_succ, List.range_zero, List.nil_append, List.cons_append, List.map_cons, List.map_nil,
    List.sum_cons, List.sum_nil]
  have h : ∀ b : Bool, b.toNat ≤ 1 := by decide
  have := fun t => h (v.getLsbD t)
  linarith [this 0, this 1, this 2, this 3, this 4, this 5, this 6, this 7]

/-- The check byte's value is the popcount (00_scope.md R10, 41_bitframing.md R142). -/
theorem checkByte_toNat (v : Byte) : (checkByte v).toNat = popcount v := by
  have := popcount_le v
  simp [checkByte]; omega

end Sys2Proof.Machine
end

