-- ==== Sys2Proof/Laws/State.lean ====
section
/-! SUPPORT. One lemma per field per update of the state, so that no later proof unfolds a record update. -/

namespace Sys2Proof.Machine

@[simp] theorem complete_params (r : CmdResult) (s : State) : (complete r s).params = s.params := rfl
@[simp] theorem complete_latch (r : CmdResult) (s : State) : (complete r s).latch = none := rfl
@[simp] theorem complete_buf (r : CmdResult) (s : State) : (complete r s).buf = Memory.writeAll s.buf r.writes := rfl
@[simp] theorem complete_fault (r : CmdResult) (s : State) : (complete r s).fault = s.fault := rfl
@[simp] theorem complete_host (r : CmdResult) (s : State) : (complete r s).host = s.host := rfl
@[simp] theorem complete_sched (r : CmdResult) (s : State) : (complete r s).sched = s.sched := rfl
@[simp] theorem complete_draws (r : CmdResult) (s : State) : (complete r s).draws = s.draws := rfl
@[simp] theorem complete_frameW (r : CmdResult) (s : State) : (complete r s).regs.frameW = s.regs.frameW := rfl
@[simp] theorem complete_frameH (r : CmdResult) (s : State) : (complete r s).regs.frameH = s.regs.frameH := rfl
@[simp] theorem complete_blockSize (r : CmdResult) (s : State) : (complete r s).regs.blockSize = s.regs.blockSize := rfl
@[simp] theorem complete_cmd (r : CmdResult) (s : State) : (complete r s).regs.cmd = s.regs.cmd := rfl
@[simp] theorem complete_status (r : CmdResult) (s : State) : (complete r s).regs.status = s.regs.status.completed r.mism := rfl
@[simp] theorem complete_srcAddr (r : CmdResult) (s : State) : (complete r s).regs.srcAddr = s.regs.srcAddr := rfl
@[simp] theorem complete_srcLen (r : CmdResult) (s : State) : (complete r s).regs.srcLen = s.regs.srcLen := rfl
@[simp] theorem complete_src2Addr (r : CmdResult) (s : State) : (complete r s).regs.src2Addr = s.regs.src2Addr := rfl
@[simp] theorem complete_src2Len (r : CmdResult) (s : State) : (complete r s).regs.src2Len = s.regs.src2Len := rfl
@[simp] theorem complete_dstAddr (r : CmdResult) (s : State) : (complete r s).regs.dstAddr = s.regs.dstAddr := rfl
@[simp] theorem complete_dst2Addr (r : CmdResult) (s : State) : (complete r s).regs.dst2Addr = s.regs.dst2Addr := rfl
@[simp] theorem complete_frameIndex (r : CmdResult) (s : State) : (complete r s).regs.frameIndex = s.regs.frameIndex := rfl
@[simp] theorem complete_resultLen (r : CmdResult) (s : State) : (complete r s).regs.resultLen = BitVec.ofNat 32 r.len := rfl
@[simp] theorem complete_resultAux (r : CmdResult) (s : State) : (complete r s).regs.resultAux = BitVec.ofNat 32 r.aux := rfl
@[simp] theorem complete_firstMism (r : CmdResult) (s : State) : (complete r s).regs.firstMism = r.first := rfl

@[simp] theorem failWith_params (c : ErrCode) (s : State) : (failWith c s).params = s.params := rfl
@[simp] theorem failWith_latch (c : ErrCode) (s : State) : (failWith c s).latch = none := rfl
@[simp] theorem failWith_buf (c : ErrCode) (s : State) : (failWith c s).buf = s.buf := rfl
@[simp] theorem failWith_fault (c : ErrCode) (s : State) : (failWith c s).fault = s.fault := rfl
@[simp] theorem failWith_host (c : ErrCode) (s : State) : (failWith c s).host = s.host := rfl
@[simp] theorem failWith_sched (c : ErrCode) (s : State) : (failWith c s).sched = s.sched := rfl
@[simp] theorem failWith_draws (c : ErrCode) (s : State) : (failWith c s).draws = s.draws := rfl
@[simp] theorem failWith_frameW (c : ErrCode) (s : State) : (failWith c s).regs.frameW = s.regs.frameW := rfl
@[simp] theorem failWith_frameH (c : ErrCode) (s : State) : (failWith c s).regs.frameH = s.regs.frameH := rfl
@[simp] theorem failWith_blockSize (c : ErrCode) (s : State) : (failWith c s).regs.blockSize = s.regs.blockSize := rfl
@[simp] theorem failWith_cmd (c : ErrCode) (s : State) : (failWith c s).regs.cmd = s.regs.cmd := rfl
@[simp] theorem failWith_status (c : ErrCode) (s : State) : (failWith c s).regs.status = s.regs.status.failed c := rfl
@[simp] theorem failWith_srcAddr (c : ErrCode) (s : State) : (failWith c s).regs.srcAddr = s.regs.srcAddr := rfl
@[simp] theorem failWith_srcLen (c : ErrCode) (s : State) : (failWith c s).regs.srcLen = s.regs.srcLen := rfl
@[simp] theorem failWith_src2Addr (c : ErrCode) (s : State) : (failWith c s).regs.src2Addr = s.regs.src2Addr := rfl
@[simp] theorem failWith_src2Len (c : ErrCode) (s : State) : (failWith c s).regs.src2Len = s.regs.src2Len := rfl
@[simp] theorem failWith_dstAddr (c : ErrCode) (s : State) : (failWith c s).regs.dstAddr = s.regs.dstAddr := rfl
@[simp] theorem failWith_dst2Addr (c : ErrCode) (s : State) : (failWith c s).regs.dst2Addr = s.regs.dst2Addr := rfl
@[simp] theorem failWith_frameIndex (c : ErrCode) (s : State) : (failWith c s).regs.frameIndex = s.regs.frameIndex := rfl
@[simp] theorem failWith_resultLen (c : ErrCode) (s : State) : (failWith c s).regs.resultLen = 0 := rfl
@[simp] theorem failWith_resultAux (c : ErrCode) (s : State) : (failWith c s).regs.resultAux = 0 := rfl
@[simp] theorem failWith_firstMism (c : ErrCode) (s : State) : (failWith c s).regs.firstMism = noMism := rfl

@[simp] theorem acceptCmd_params (w : Word) (s : State) : (acceptCmd w s).params = s.params := rfl
@[simp] theorem acceptCmd_latch (w : Word) (s : State) : (acceptCmd w s).latch = some (latchOf w s.regs) := rfl
@[simp] theorem acceptCmd_buf (w : Word) (s : State) : (acceptCmd w s).buf = s.buf := rfl
@[simp] theorem acceptCmd_fault (w : Word) (s : State) : (acceptCmd w s).fault = s.fault := rfl
@[simp] theorem acceptCmd_host (w : Word) (s : State) : (acceptCmd w s).host = s.host := rfl
@[simp] theorem acceptCmd_sched (w : Word) (s : State) : (acceptCmd w s).sched = s.sched := rfl
@[simp] theorem acceptCmd_draws (w : Word) (s : State) : (acceptCmd w s).draws = s.draws := rfl
@[simp] theorem acceptCmd_frameW (w : Word) (s : State) : (acceptCmd w s).regs.frameW = s.regs.frameW := rfl
@[simp] theorem acceptCmd_frameH (w : Word) (s : State) : (acceptCmd w s).regs.frameH = s.regs.frameH := rfl
@[simp] theorem acceptCmd_blockSize (w : Word) (s : State) : (acceptCmd w s).regs.blockSize = s.regs.blockSize := rfl
@[simp] theorem acceptCmd_cmd (w : Word) (s : State) : (acceptCmd w s).regs.cmd = w := rfl
@[simp] theorem acceptCmd_status (w : Word) (s : State) : (acceptCmd w s).regs.status = s.regs.status.issued := rfl
@[simp] theorem acceptCmd_srcAddr (w : Word) (s : State) : (acceptCmd w s).regs.srcAddr = s.regs.srcAddr := rfl
@[simp] theorem acceptCmd_srcLen (w : Word) (s : State) : (acceptCmd w s).regs.srcLen = s.regs.srcLen := rfl
@[simp] theorem acceptCmd_src2Addr (w : Word) (s : State) : (acceptCmd w s).regs.src2Addr = s.regs.src2Addr := rfl
@[simp] theorem acceptCmd_src2Len (w : Word) (s : State) : (acceptCmd w s).regs.src2Len = s.regs.src2Len := rfl
@[simp] theorem acceptCmd_dstAddr (w : Word) (s : State) : (acceptCmd w s).regs.dstAddr = s.regs.dstAddr := rfl
@[simp] theorem acceptCmd_dst2Addr (w : Word) (s : State) : (acceptCmd w s).regs.dst2Addr = s.regs.dst2Addr := rfl
@[simp] theorem acceptCmd_frameIndex (w : Word) (s : State) : (acceptCmd w s).regs.frameIndex = s.regs.frameIndex := rfl
@[simp] theorem acceptCmd_resultLen (w : Word) (s : State) : (acceptCmd w s).regs.resultLen = s.regs.resultLen := rfl
@[simp] theorem acceptCmd_resultAux (w : Word) (s : State) : (acceptCmd w s).regs.resultAux = s.regs.resultAux := rfl
@[simp] theorem acceptCmd_firstMism (w : Word) (s : State) : (acceptCmd w s).regs.firstMism = s.regs.firstMism := rfl

@[simp] theorem advance_params (s : State) : (advance s).params = s.params := rfl
@[simp] theorem advance_latch (s : State) : (advance s).latch = s.latch := rfl
@[simp] theorem advance_buf (s : State) : (advance s).buf = s.buf := rfl
@[simp] theorem advance_fault (s : State) : (advance s).fault = s.fault := rfl
@[simp] theorem advance_host (s : State) : (advance s).host = { s.host with pos := s.host.pos + 1 } := rfl
@[simp] theorem advance_sched (s : State) : (advance s).sched = s.sched := rfl
@[simp] theorem advance_draws (s : State) : (advance s).draws = s.draws := rfl
@[simp] theorem advance_regs (s : State) : (advance s).regs = s.regs := rfl

@[simp] theorem recordHazard_params (s : State) : (recordHazard s).params = s.params := rfl
@[simp] theorem recordHazard_latch (s : State) : (recordHazard s).latch = s.latch := rfl
@[simp] theorem recordHazard_buf (s : State) : (recordHazard s).buf = s.buf := rfl
@[simp] theorem recordHazard_fault (s : State) : (recordHazard s).fault = some .bufWhileBusy := rfl
@[simp] theorem recordHazard_host (s : State) : (recordHazard s).host = s.host := rfl
@[simp] theorem recordHazard_sched (s : State) : (recordHazard s).sched = s.sched := rfl
@[simp] theorem recordHazard_draws (s : State) : (recordHazard s).draws = s.draws := rfl
@[simp] theorem recordHazard_regs (s : State) : (recordHazard s).regs = s.regs := rfl

@[simp] theorem placeCommand_params (w : Word) (s : State) : (placeCommand w s).params = s.params := rfl
@[simp] theorem placeCommand_latch (w : Word) (s : State) : (placeCommand w s).latch = some (latchOf w s.regs) := rfl
@[simp] theorem placeCommand_buf (w : Word) (s : State) : (placeCommand w s).buf = s.buf := rfl
@[simp] theorem placeCommand_fault (w : Word) (s : State) : (placeCommand w s).fault = s.fault := rfl
@[simp] theorem placeCommand_host (w : Word) (s : State) : (placeCommand w s).host = s.host := rfl
@[simp] theorem placeCommand_sched (w : Word) (s : State) : (placeCommand w s).sched = .engine :: s.sched := rfl
@[simp] theorem placeCommand_draws (w : Word) (s : State) : (placeCommand w s).draws = s.draws := rfl
@[simp] theorem placeCommand_frameW (w : Word) (s : State) : (placeCommand w s).regs.frameW = s.regs.frameW := rfl
@[simp] theorem placeCommand_frameH (w : Word) (s : State) : (placeCommand w s).regs.frameH = s.regs.frameH := rfl
@[simp] theorem placeCommand_blockSize (w : Word) (s : State) : (placeCommand w s).regs.blockSize = s.regs.blockSize := rfl
@[simp] theorem placeCommand_cmd (w : Word) (s : State) : (placeCommand w s).regs.cmd = w := rfl
@[simp] theorem placeCommand_status (w : Word) (s : State) : (placeCommand w s).regs.status = s.regs.status.issued := rfl
@[simp] theorem placeCommand_srcAddr (w : Word) (s : State) : (placeCommand w s).regs.srcAddr = s.regs.srcAddr := rfl
@[simp] theorem placeCommand_srcLen (w : Word) (s : State) : (placeCommand w s).regs.srcLen = s.regs.srcLen := rfl
@[simp] theorem placeCommand_src2Addr (w : Word) (s : State) : (placeCommand w s).regs.src2Addr = s.regs.src2Addr := rfl
@[simp] theorem placeCommand_src2Len (w : Word) (s : State) : (placeCommand w s).regs.src2Len = s.regs.src2Len := rfl
@[simp] theorem placeCommand_dstAddr (w : Word) (s : State) : (placeCommand w s).regs.dstAddr = s.regs.dstAddr := rfl
@[simp] theorem placeCommand_dst2Addr (w : Word) (s : State) : (placeCommand w s).regs.dst2Addr = s.regs.dst2Addr := rfl
@[simp] theorem placeCommand_frameIndex (w : Word) (s : State) : (placeCommand w s).regs.frameIndex = s.regs.frameIndex := rfl
@[simp] theorem placeCommand_resultLen (w : Word) (s : State) : (placeCommand w s).regs.resultLen = s.regs.resultLen := rfl
@[simp] theorem placeCommand_resultAux (w : Word) (s : State) : (placeCommand w s).regs.resultAux = s.regs.resultAux := rfl
@[simp] theorem placeCommand_firstMism (w : Word) (s : State) : (placeCommand w s).regs.firstMism = s.regs.firstMism := rfl

@[simp] theorem resetTurn_params (s : State) : (resetTurn s).params = s.params := rfl
@[simp] theorem resetTurn_regs (s : State) : (resetTurn s).regs = Regs.reset := rfl
@[simp] theorem resetTurn_latch (s : State) : (resetTurn s).latch = none := rfl
@[simp] theorem resetTurn_fault (s : State) : (resetTurn s).fault = s.fault := rfl
@[simp] theorem resetTurn_host (s : State) : (resetTurn s).host = s.host := rfl
@[simp] theorem resetTurn_sched (s : State) : (resetTurn s).sched = s.sched := rfl

@[simp] theorem launch_params (p : Params) (m : Memory) : (State.launch p m).params = p := rfl
@[simp] theorem launch_regs (p : Params) (m : Memory) : (State.launch p m).regs = Regs.reset := rfl
@[simp] theorem launch_latch (p : Params) (m : Memory) : (State.launch p m).latch = none := rfl
@[simp] theorem launch_buf (p : Params) (m : Memory) : (State.launch p m).buf = m := rfl
@[simp] theorem launch_fault (p : Params) (m : Memory) : (State.launch p m).fault = none := rfl
@[simp] theorem launch_sched (p : Params) (m : Memory) : (State.launch p m).sched = [] := rfl
@[simp] theorem launch_draws (p : Params) (m : Memory) : (State.launch p m).draws = 0 := rfl

@[simp] theorem issued_busy (st : Status) : (st.issued).busy = true := rfl
@[simp] theorem issued_done (st : Status) : (st.issued).done = false := rfl
@[simp] theorem issued_err (st : Status) : (st.issued).err = false := rfl
@[simp] theorem issued_mism (st : Status) : (st.issued).mism = false := rfl
@[simp] theorem issued_overrun (st : Status) : (st.issued).overrun = st.overrun := rfl
@[simp] theorem issued_errCode (st : Status) : (st.issued).errCode = .none := rfl

@[simp] theorem completed_busy (st : Status) (m : Bool) : (st.completed m).busy = false := rfl
@[simp] theorem completed_done (st : Status) (m : Bool) : (st.completed m).done = true := rfl
@[simp] theorem completed_err (st : Status) (m : Bool) : (st.completed m).err = false := rfl
@[simp] theorem completed_mism (st : Status) (m : Bool) : (st.completed m).mism = m := rfl
@[simp] theorem completed_overrun (st : Status) (m : Bool) : (st.completed m).overrun = st.overrun := rfl
@[simp] theorem completed_errCode (st : Status) (m : Bool) : (st.completed m).errCode = .none := rfl

@[simp] theorem failed_busy (st : Status) (c : ErrCode) : (st.failed c).busy = false := rfl
@[simp] theorem failed_done (st : Status) (c : ErrCode) : (st.failed c).done = true := rfl
@[simp] theorem failed_err (st : Status) (c : ErrCode) : (st.failed c).err = true := rfl
@[simp] theorem failed_mism (st : Status) (c : ErrCode) : (st.failed c).mism = false := rfl
@[simp] theorem failed_overrun (st : Status) (c : ErrCode) : (st.failed c).overrun = st.overrun := rfl
@[simp] theorem failed_errCode (st : Status) (c : ErrCode) : (st.failed c).errCode = c := rfl

@[simp] theorem overran_busy (st : Status) : (st.overran).busy = st.busy := rfl
@[simp] theorem overran_done (st : Status) : (st.overran).done = st.done := rfl
@[simp] theorem overran_err (st : Status) : (st.overran).err = st.err := rfl
@[simp] theorem overran_mism (st : Status) : (st.overran).mism = st.mism := rfl
@[simp] theorem overran_overrun (st : Status) : (st.overran).overrun = true := rfl
@[simp] theorem overran_errCode (st : Status) : (st.overran).errCode = st.errCode := rfl

@[simp] theorem hostWrite_busy (st : Status) (w : Word) : (st.hostWrite w).busy = st.busy := rfl
@[simp] theorem hostWrite_done (st : Status) (w : Word) : (st.hostWrite w).done = st.done := rfl
@[simp] theorem hostWrite_err (st : Status) (w : Word) : (st.hostWrite w).err = st.err := rfl
@[simp] theorem hostWrite_mism (st : Status) (w : Word) : (st.hostWrite w).mism = st.mism := rfl
@[simp] theorem hostWrite_overrun (st : Status) (w : Word) : (st.hostWrite w).overrun = (st.overrun && !w.getLsbD 4) := rfl
@[simp] theorem hostWrite_errCode (st : Status) (w : Word) : (st.hostWrite w).errCode = st.errCode := rfl

/-- The registers that only `acceptCmd` and a completion write are unchanged by a busy CMD write. -/
theorem writeCmd_busy {s : State} (h : s.regs.status.busy = true) (w : Word) :
    writeCmd w s = { s with regs := { s.regs with status := s.regs.status.overran } } := by
  simp [writeCmd, h]

/-- A CMD write while idle is accepted. -/
theorem writeCmd_idle {s : State} (h : s.regs.status.busy = false) (w : Word) : writeCmd w s = acceptCmd w s := by
  simp [writeCmd, h]

end Sys2Proof.Machine
end

