-- ==== Sys2Proof/Laws/Exec.lean ====
section
/-! SUPPORT. What the shared operations of the commands can do: the common checks, the engine step, completion and
failure. One lemma per operation, which later proofs cite. -/

namespace Sys2Proof.Machine

/-- Every range is in BUF: range by range (40_command_lifecycle.md R120). -/
theorem allInBuf_iff (o : OperandRanges) (n : Nat) :
    o.allInBuf n = true ↔ ∀ r ∈ o.inOrder, r.start + r.len ≤ n := by
  simp [OperandRanges.allInBuf, BufRange.inBuf]

/-- A destination is one of the ranges that are checked. -/
theorem dests_sub_inOrder {o : OperandRanges} {r : BufRange} (h : r ∈ o.dests) : r ∈ o.inOrder := by
  simp only [OperandRanges.dests, OperandRanges.inOrder, List.mem_append] at h ⊢; tauto

/-- The common checks in their order (40_command_lifecycle.md R122). -/
theorem commonChecks_cases (i : Instr) (L : Latch) (n : Nat) :
    (commonChecks i L n = some .badConfig ∧ usesGeometry i = true ∧ L.geometryOk = false) ∨
    (commonChecks i L n = some .range ∧ (usesGeometry i = true → L.geometryOk = true) ∧
      (operandRanges i L).allInBuf n = false) ∨
    (commonChecks i L n = some .overlap ∧ (usesGeometry i = true → L.geometryOk = true) ∧
      (operandRanges i L).allInBuf n = true ∧ (operandRanges i L).overlapping = true) ∨
    (commonChecks i L n = none ∧ ChecksPass i L n) := by
  unfold commonChecks ChecksPass
  cases usesGeometry i <;> cases L.geometryOk <;> cases (operandRanges i L).allInBuf n <;>
    cases (operandRanges i L).overlapping <;> simp

/-- All common checks pass exactly when `commonChecks` names no error. -/
theorem commonChecks_none_iff (i : Instr) (L : Latch) (n : Nat) : commonChecks i L n = none ↔ ChecksPass i L n := by
  unfold commonChecks ChecksPass
  cases usesGeometry i <;> cases L.geometryOk <;> cases (operandRanges i L).allInBuf n <;>
    cases (operandRanges i L).overlapping <;> simp

/-- Exec with passing checks is the family body. -/
theorem execResult_pass {i : Instr} {body : Latch → Memory → Except ErrCode CmdResult} {L : Latch} {n : Nat}
    {buf : Memory} (h : ChecksPass i L n) : execResult i body L n buf = body L buf := by
  simp [execResult, (commonChecks_none_iff i L n).2 h]

/-- Exec with a failing check raises that check's error. -/
theorem execResult_fail {i : Instr} {body : Latch → Memory → Except ErrCode CmdResult} {L : Latch} {n : Nat}
    {buf : Memory} {c : ErrCode} (h : commonChecks i L n = some c) : execResult i body L n buf = .error c := by
  simp [execResult, h]

/-- A successful Exec passed its checks, and its body succeeded. -/
theorem execResult_ok {i : Instr} {body : Latch → Memory → Except ErrCode CmdResult} {L : Latch} {n : Nat}
    {buf : Memory} {r : CmdResult} (h : execResult i body L n buf = .ok r) :
    ChecksPass i L n ∧ body L buf = .ok r := by
  rcases hc : commonChecks i L n with _ | c
  · have hp := (commonChecks_none_iff i L n).1 hc
    exact ⟨hp, by rwa [execResult_pass hp] at h⟩
  · rw [execResult_fail hc] at h; cases h

/-- The engine step of a latched command is a next state. -/
theorem perform_latched {i : Instr} {body : Latch → Memory → Except ErrCode CmdResult} {s : State} {L : Latch}
    (h : s.latch = some L) :
    perform i body s = .next (settle (execResult i body L s.params.bufBytes s.buf) s) := by
  simp [perform, h]

/-- Everything the engine step of a command can do when it answers a next state. -/
theorem perform_next {i : Instr} {body : Latch → Memory → Except ErrCode CmdResult} {s t : State}
    (h : perform i body s = .next t) :
    ∃ L, s.latch = some L ∧
      ((∃ r, ChecksPass i L s.params.bufBytes ∧ body L s.buf = .ok r ∧ t = complete r s) ∨
       (∃ c, execResult i body L s.params.bufBytes s.buf = .error c ∧ t = failWith c s)) := by
  unfold perform at h
  split at h
  · cases h
  · rename_i L hL
    refine ⟨L, hL, ?_⟩
    injection h with h
    rcases he : execResult i body L s.params.bufBytes s.buf with c | r
    · rw [he] at h; exact .inr ⟨c, rfl, h.symm⟩
    · rw [he] at h
      obtain ⟨hp, hb⟩ := execResult_ok he
      exact .inl ⟨r, hp, hb, h.symm⟩

/-- The body of a command (40_command_lifecycle.md R122). -/
def bodyOf : Instr → Latch → Memory → Except ErrCode CmdResult
  | .nop => bodyNop
  | .bframe => bodyBframe
  | .bdeframe => bodyBdeframe
  | .bdeframeS => bodyBdeframeS
  | .render => bodyRender
  | .extract => bodyExtract
  | .pframe => bodyPframe
  | .psplit => bodyPsplit

/-- Every command's meaning is the shared engine step over its body. -/
theorem exec_eq_perform (i : Instr) (s : State) : exec i s = perform i (bodyOf i) s := by cases i <;> rfl

/-- A latched command whose checks pass and whose body succeeds completes. -/
theorem exec_completes {i : Instr} {s : State} {L : Latch} {r : CmdResult} (hL : s.latch = some L)
    (hc : ChecksPass i L s.params.bufBytes) (hb : bodyOf i L s.buf = .ok r) : exec i s = .next (complete r s) := by
  rw [exec_eq_perform, perform_latched hL, execResult_pass hc, hb]; rfl

/-- A latched command whose checks pass and whose body raises an error ends with that error. -/
theorem exec_body_fails {i : Instr} {s : State} {L : Latch} {c : ErrCode} (hL : s.latch = some L)
    (hc : ChecksPass i L s.params.bufBytes) (hb : bodyOf i L s.buf = .error c) : exec i s = .next (failWith c s) := by
  rw [exec_eq_perform, perform_latched hL, execResult_pass hc, hb]; rfl

/-- A latched command one of whose checks fails ends with that check's error. -/
theorem exec_check_fails {i : Instr} {s : State} {L : Latch} {c : ErrCode} (hL : s.latch = some L)
    (hc : commonChecks i L s.params.bufBytes = some c) : exec i s = .next (failWith c s) := by
  rw [exec_eq_perform, perform_latched hL, execResult_fail hc]; rfl

/-- The errors that a body itself can raise (60_exceptions.md R201): SENTINEL by PFRAME, FRAMING by PSPLIT. -/
theorem bodyOf_error {i : Instr} {L : Latch} {m : Memory} {c : ErrCode} (h : bodyOf i L m = .error c) :
    (i = .pframe ∧ c = .sentinel ∧ holdsSentinel m L.srcAddr.toNat L.srcLen.toNat = true) ∨
    (i = .psplit ∧ c = .framing ∧ separatorIndex m L.srcAddr.toNat L.srcLen.toNat = none) := by
  cases i <;> simp only [bodyOf, bodyNop, bodyBframe, bodyBdeframe, bodyBdeframeS, bodyRender, bodyExtract, bodyPframe,
    bodyPsplit] at h <;> try cases h
  · split at h
    · rename_i hs; cases h; exact .inl ⟨rfl, rfl, hs⟩
    · cases h
  · split at h
    · rename_i hs; cases h; exact .inr ⟨rfl, rfl, hs⟩
    · cases h

/-- Everything a command can do when it answers a next state. -/
theorem exec_next {i : Instr} {s t : State} (h : exec i s = .next t) :
    ∃ L, s.latch = some L ∧
      ((∃ r, ChecksPass i L s.params.bufBytes ∧ bodyOf i L s.buf = .ok r ∧ t = complete r s) ∨
       (∃ c, c ≠ .none ∧ t = failWith c s)) := by
  rw [exec_eq_perform] at h
  obtain ⟨L, hL, h⟩ := perform_next h
  refine ⟨L, hL, h.imp_right ?_⟩
  rintro ⟨c, hc, ht⟩
  refine ⟨c, ?_, ht⟩
  rcases hk : commonChecks i L s.params.bufBytes with _ | d
  · rw [execResult_pass ((commonChecks_none_iff ..).1 hk)] at hc
    rcases bodyOf_error hc with ⟨_, rfl, _⟩ | ⟨_, rfl, _⟩ <;> simp
  · rw [execResult_fail hk] at hc
    cases hc
    rcases commonChecks_cases i L s.params.bufBytes with h | h | h | h <;> rw [hk] at h
    all_goals (obtain ⟨h, -⟩ := h; cases h)
    all_goals simp

end Sys2Proof.Machine
end

