-- ==== Sys2Proof/Laws/PerInstr.lean ====
section
/-! SUPPORT. Statements made for every command, one lemma per constructor. -/

namespace Sys2Proof.Laws.Encoding

/-- The command is well formed, its word's fields are the table's (30_encoding.md R92), and they are those of a legal
word (R90, R93 to R95). -/
def Statement (i : Instr) : Prop :=
  i.wellFormed = true ∧ fieldsOf (encode i) = encodeFields i ∧ (fieldsOf (encode i)).wellFormed = true

theorem nop : Statement .nop := by unfold Statement; decide

theorem bframe : Statement .bframe := by unfold Statement; decide

theorem bdeframe : Statement .bdeframe := by unfold Statement; decide

theorem bdeframeS : Statement .bdeframeS := by unfold Statement; decide

theorem render : Statement .render := by unfold Statement; decide

theorem extract : Statement .extract := by unfold Statement; decide

theorem pframe : Statement .pframe := by unfold Statement; decide

theorem psplit : Statement .psplit := by unfold Statement; decide

end Sys2Proof.Laws.Encoding
end

