-- ==== Sys2Proof/Laws/Writes.lean ====
section
/-! SUPPORT. Which BUF bytes a command writes: only those of its destination ranges (40_command_lifecycle.md R116,
R120); and what EXTRACT's BitWrites leave (42_raster.md R165). -/

namespace Sys2Proof.Machine

/-- The row-major index of column `x` of row `y` lies in the grid. -/
theorem rowMajor_lt {w h x y : Nat} (hx : x < w) (hy : y < h) : y * w + x < w * h := by
  have : y * w + w ≤ h * w := by
    have := Nat.mul_le_mul_right w (Nat.succ_le_of_lt hy)
    simpa [Nat.succ_mul] using this
  rw [Nat.mul_comm w h]; omega

/-- The row-major index determines row and column. -/
theorem rowMajor_inj {w x y x' y' : Nat} (hx : x < w) (hx' : x' < w) (h : y * w + x = y' * w + x') :
    x = x' ∧ y = y' := by
  have hw : 0 < w := by omega
  have h1 : (x + w * y) / w = (x' + w * y') / w := by rw [Nat.mul_comm w y, Nat.mul_comm w y']; congr 1; omega
  rw [Nat.add_mul_div_left _ _ hw, Nat.add_mul_div_left _ _ hw, Nat.div_eq_of_lt hx, Nat.div_eq_of_lt hx'] at h1
  have hy : y = y' := by omega
  subst hy
  exact ⟨by omega, rfl⟩

theorem mem_storeBits {A : Nat} {s : List Bool} {c : Host.Cell} (h : c ∈ storeBits A s) :
    A ≤ c.1 ∧ c.1 < A + ceilDiv s.length 8 := by
  obtain ⟨q, hq, rfl⟩ := List.mem_map.1 h
  simp at hq ⊢; omega

theorem mem_copyBytes {m : Memory} {A n D : Nat} {c : Host.Cell} (h : c ∈ copyBytes m A n D) :
    D ≤ c.1 ∧ c.1 < D + n := by
  obtain ⟨j, hj, rfl⟩ := List.mem_map.1 h
  simp at hj ⊢; omega

/-- Every cell that a successful command writes lies in one of its destination ranges (40_command_lifecycle.md R116,
R120). -/
theorem bodyOf_writes {i : Instr} {L : Latch} {m : Memory} {r : CmdResult} (h : bodyOf i L m = .ok r) :
    ∀ c ∈ r.writes, ∃ d ∈ (operandRanges i L).dests, d.start ≤ c.1 ∧ c.1 < d.start + d.len := by
  intro c hc
  cases i <;> simp only [bodyOf, bodyNop, bodyBframe, bodyBdeframe, bodyBdeframeS, bodyRender, bodyExtract, bodyPframe,
    bodyPsplit] at h
  · cases h; simp at hc
  · cases h
    refine ⟨⟨L.dstAddr.toNat, 2 * L.srcLen.toNat⟩, by simp [operandRanges, OperandRanges.dests], ?_⟩
    have := mem_storeBits hc
    simp only [frameStream_length, ceilDiv] at this
    simp only; omega
  · cases h
    obtain ⟨j, hj, rfl⟩ := List.mem_map.1 hc
    refine ⟨⟨L.dstAddr.toNat, L.srcLen.toNat / 16⟩, by simp [operandRanges, OperandRanges.dests], ?_⟩
    simp at hj ⊢; omega
  · cases h
    rcases List.mem_append.1 hc with hc | hc
    · obtain ⟨j, hj, rfl⟩ := List.mem_map.1 hc
      refine ⟨⟨L.dstAddr.toNat, L.srcLen.toNat / 16⟩, by simp [operandRanges, OperandRanges.dests], ?_⟩
      simp at hj ⊢; omega
    · refine ⟨⟨L.dst2Addr.toNat, ceilDiv (L.srcLen.toNat / 16) 8⟩,
        by simp [operandRanges, OperandRanges.dests], ?_⟩
      have := mem_storeBits hc
      simpa [mismatches] using this
  · cases h
    obtain ⟨y, hy, hc⟩ := List.mem_flatMap.1 hc
    obtain ⟨x, hx, rfl⟩ := List.mem_map.1 hc
    refine ⟨⟨L.dstAddr.toNat, L.width * L.height⟩, by simp [operandRanges, OperandRanges.dests], ?_⟩
    have := rowMajor_lt (List.mem_range.1 hx) (List.mem_range.1 hy)
    simp only [pixelAddr]; omega
  · cases h
    obtain ⟨j, hj, rfl⟩ := List.mem_map.1 hc
    refine ⟨⟨L.extractStart, L.extractLen⟩, by simp [operandRanges, OperandRanges.dests], ?_⟩
    simp at hj ⊢; omega
  · split at h
    · cases h
    · cases h
      refine ⟨⟨L.dstAddr.toNat, L.srcLen.toNat + 1 + L.src2Len.toNat⟩,
        by simp [operandRanges, OperandRanges.dests], ?_⟩
      simp only [List.mem_append, List.mem_singleton] at hc
      rcases hc with (hc | rfl) | hc
      · have := mem_copyBytes hc; simp only; omega
      · simp only; omega
      · have := mem_copyBytes hc; simp only; omega
  · split at h
    · cases h
    · cases h; simp at hc

/-- The bits that a list of BitWrites leaves: a named bit takes its value, when each place is named with one value
only; every other bit stays (20_memory.md R65). -/
theorem bitRead_foldl_bitWrite {α : Type} {m : Memory} (hm : Memory.wf m) (A : Nat) (l : List α) (pos : α → Nat)
    (val : α → Bool) (hinj : ∀ x ∈ l, ∀ y ∈ l, pos x = pos y → val x = val y) (k : Nat) :
    (∀ x ∈ l, pos x = k → bitRead (l.foldl (fun m x => bitWrite m A (pos x) (val x)) m) A k = val x) ∧
    ((∀ x ∈ l, pos x ≠ k) → bitRead (l.foldl (fun m x => bitWrite m A (pos x) (val x)) m) A k = bitRead m A k) := by
  induction l generalizing m with
  | nil => simp
  | cons d l ih =>
    have ih' := ih (Memory.wf_bitWrite hm A (pos d) (val d))
      (fun x hx y hy => hinj x (by simp [hx]) y (by simp [hy]))
    simp only [List.foldl_cons]
    refine ⟨fun x hx hxk => ?_, fun hne => ?_⟩
    · by_cases h : ∃ y ∈ l, pos y = k
      · obtain ⟨y, hy, hyk⟩ := h
        rw [ih'.1 y hy hyk]
        exact hinj y (by simp [hy]) x hx (by rw [hyk, hxk])
      · push Not at h
        rw [ih'.2 h, bitRead_bitWrite hm]
        rcases List.mem_cons.1 hx with rfl | hx
        · rw [if_pos hxk.symm]
        · exact absurd hxk (h x hx)
    · rw [ih'.2 (fun x hx => hne x (by simp [hx])), bitRead_bitWrite hm, if_neg (Ne.symm (hne d (by simp)))]

/-- BitWrites into the string at `A` leave every byte below `A` alone and keep the canonical form. -/
theorem foldl_bitWrite_below {α : Type} {m : Memory} (hm : Memory.wf m) (A : Nat) (l : List α) (pos : α → Nat)
    (val : α → Bool) :
    Memory.wf (l.foldl (fun m x => bitWrite m A (pos x) (val x)) m) ∧
    ∀ a < A, Memory.read (l.foldl (fun m x => bitWrite m A (pos x) (val x)) m) a = Memory.read m a := by
  induction l generalizing m with
  | nil => exact ⟨hm, fun _ _ => rfl⟩
  | cons d l ih =>
    have ih' := ih (Memory.wf_bitWrite hm A (pos d) (val d))
    exact ⟨ih'.1, fun a ha => by rw [List.foldl_cons, ih'.2 a ha, read_bitWrite_below A _ _ ha]⟩

/-- Block (r, c) of the grid is one of the frame's blocks. -/
theorem mem_frameBlocks {L : Latch} {r c : Nat} :
    (r, c) ∈ frameBlocks L ↔ r < L.height / L.block ∧ c < L.width / L.block := by
  simp [frameBlocks, List.mem_flatMap]

/-- Two bit strings over the same bytes that agree bit by bit agree byte by byte. -/
theorem read_eq_of_bits {m k : Memory} {A a : Nat} (ha : A ≤ a)
    (h : ∀ t < 8, bitRead m A (8 * (a - A) + t) = bitRead k A (8 * (a - A) + t)) : Memory.read m a = Memory.read k a := by
  apply BitVec.eq_of_getLsbD_eq
  intro p hp
  have := h (7 - p) (by omega)
  unfold bitRead at this
  rw [show A + (8 * (a - A) + (7 - p)) / 8 = a by omega, show 7 - (8 * (a - A) + (7 - p)) % 8 = p by omega] at this
  exact this

/-- What EXTRACT's BitWrites leave in BUF, bit by bit (42_raster.md R165): a bit of the frame is its block's bit, every
other bit of the stream at DST_ADDR, and every byte below DST_ADDR, is as before. -/
theorem extractBits_spec {m : Memory} (hm : Memory.wf m) (L : Latch) :
    Memory.wf (extractBits L m) ∧
    (∀ a < L.dstAddr.toNat, Memory.read (extractBits L m) a = Memory.read m a) ∧
    (∀ r c, r < L.height / L.block → c < L.width / L.block →
      bitRead (extractBits L m) L.dstAddr.toNat (L.frameIndex.toNat * L.bpf + r * (L.width / L.block) + c) =
        blockBit L m r c) ∧
    (∀ k, k < L.frameIndex.toNat * L.bpf ∨ (L.frameIndex.toNat + 1) * L.bpf ≤ k →
      bitRead (extractBits L m) L.dstAddr.toNat k = bitRead m L.dstAddr.toNat k) := by
  have hb := foldl_bitWrite_below hm L.dstAddr.toNat (frameBlocks L)
    (fun rc => L.frameIndex.toNat * L.bpf + rc.1 * (L.width / L.block) + rc.2)
    (fun rc => blockBit L m rc.1 rc.2)
  have hf := bitRead_foldl_bitWrite hm L.dstAddr.toNat (frameBlocks L)
    (fun rc => L.frameIndex.toNat * L.bpf + rc.1 * (L.width / L.block) + rc.2)
    (fun rc => blockBit L m rc.1 rc.2)
    (by
      rintro ⟨r, c⟩ hx ⟨r', c'⟩ hy he
      obtain ⟨-, hc⟩ := mem_frameBlocks.1 hx
      obtain ⟨-, hc'⟩ := mem_frameBlocks.1 hy
      have he' : r * (L.width / L.block) + c = r' * (L.width / L.block) + c' := by
        simp only [Nat.add_assoc] at he; omega
      obtain ⟨rfl, rfl⟩ := rowMajor_inj hc hc' he'
      rfl)
  refine ⟨hb.1, hb.2, fun r c hr hc => (hf _).1 (r, c) (mem_frameBlocks.2 ⟨hr, hc⟩) rfl, fun k hk => (hf k).2 ?_⟩
  rintro ⟨r, c⟩ hx rfl
  obtain ⟨hr, hc⟩ := mem_frameBlocks.1 hx
  have := rowMajor_lt hc hr
  have hb : L.bpf = (L.width / L.block) * (L.height / L.block) := rfl
  rw [Nat.succ_mul] at hk
  simp only at hk
  rw [← hb] at this
  omega

/-- EXTRACT writes back exactly the bytes that its BitWrites may have changed: BUF afterwards reads as the BitWrites
left it (42_raster.md R165, 40_command_lifecycle.md R120). -/
theorem read_extract {m : Memory} (hm : Memory.wf m) (L : Latch) (a : Nat) :
    Memory.read (Memory.writeAll m ((List.range L.extractLen).map fun j =>
      (L.extractStart + j, Memory.read (extractBits L m) (L.extractStart + j)))) a =
      Memory.read (extractBits L m) a := by
  obtain ⟨-, hlow, -, hkeep⟩ := extractBits_spec hm L
  rw [Memory.read_writeAll_block hm L.extractStart L.extractLen fun j =>
    Memory.read (extractBits L m) (L.extractStart + j)]
  split
  · rename_i h; congr 1; omega
  · rename_i h
    by_cases ha : a < L.dstAddr.toNat
    · exact (hlow a ha).symm
    · refine (read_eq_of_bits (A := L.dstAddr.toNat) (by omega) fun t ht => hkeep _ ?_).symm
      simp only [Latch.extractStart, Latch.extractLen, ceilDiv] at h
      have : L.frameIndex.toNat * L.bpf ≤ (L.frameIndex.toNat + 1) * L.bpf := Nat.mul_le_mul_right _ (by omega)
      omega

end Sys2Proof.Machine
end

