-- ==== Sys2Proof/Laws/Turn.lean ====
section
/-! SUPPORT. What the host, the engine, the reset and a whole step can do: one lemma per operation. -/

namespace Sys2Proof.Machine

/-- Every offset is one register's, or reserved (10_state.md R23, R49). -/
theorem regAt_cases (off : Nat) : (∃ n, regAt off = some n ∧ off = regOffset n) ∨
    (regAt off = none ∧ ∀ n, off ≠ regOffset n) := by
  unfold regAt
  split
  case h_20 =>
    refine .inr ⟨rfl, fun n => ?_⟩
    cases n <;> simp only [regOffset] <;> assumption
  all_goals exact .inl ⟨_, rfl, rfl⟩

@[simp] theorem regAt_regOffset (n : RegName) : regAt (regOffset n) = some n := by cases n <;> rfl

/-- A host register write touches registers and, at CMD, the latch (10_state.md R31, R53); nothing else. -/
theorem writeSlot_frame (off : Nat) (w : Word) (s : State) :
    (writeSlot off w s).params = s.params ∧ (writeSlot off w s).buf = s.buf ∧ (writeSlot off w s).fault = s.fault ∧
    (writeSlot off w s).host = s.host ∧ (writeSlot off w s).sched = s.sched ∧
    (writeSlot off w s).draws = s.draws := by
  unfold writeSlot
  split
  · rename_i n _
    cases n <;> simp only [writeReg, writeCmd, and_self] <;> (split <;> simp)
  · simp

/-- Everything a host register write can do: accept a command, set OVERRUN, write STATUS, or store an argument or
geometry register (or nothing), in which case the latch, STATUS, CMD and the results stay. -/
theorem writeSlot_cases (off : Nat) (w : Word) (s : State) :
    (off = 0x1C ∧ s.regs.status.busy = false ∧ writeSlot off w s = acceptCmd w s) ∨
    (off = 0x1C ∧ s.regs.status.busy = true ∧
      writeSlot off w s = { s with regs := { s.regs with status := s.regs.status.overran } }) ∨
    (off = 0x20 ∧ writeSlot off w s = { s with regs := { s.regs with status := s.regs.status.hostWrite w } }) ∨
    (off ≠ 0x1C ∧ off ≠ 0x20 ∧ (writeSlot off w s).latch = s.latch ∧
      (writeSlot off w s).regs.status = s.regs.status ∧ (writeSlot off w s).regs.cmd = s.regs.cmd ∧
      (writeSlot off w s).regs.resultLen = s.regs.resultLen ∧ (writeSlot off w s).regs.resultAux = s.regs.resultAux ∧
      (writeSlot off w s).regs.firstMism = s.regs.firstMism) := by
  rcases regAt_cases off with ⟨n, hn, ho⟩ | ⟨hn, hne⟩
  · cases n <;> simp only [regOffset] at ho <;> subst ho <;> simp [writeSlot, hn, writeReg]
    cases hb : s.regs.status.busy
    · simp [writeCmd_idle hb]
    · simp [writeCmd_busy hb]
  · refine .inr (.inr (.inr ⟨hne .cmd, hne .status, ?_⟩))
    simp [writeSlot, hn]

/-- Which target an access reaches (20_memory.md R67, R70). -/
theorem route_ok {p : Params} {w : Width} {addr : Nat} {t : Target} (h : route p w addr = .ok t) :
    (∃ off, t = .reg off ∧ w = .w32 ∧ off < 256 ∧ off % 4 = 0 ∧ addr = p.regBase + off) ∨
    (∃ a, t = .buf a ∧ w = .w8 ∧ a < p.bufBytes ∧ addr = p.bufBase + a) := by
  unfold route at h
  split at h
  · split at h
    · cases h
    · split at h
      · cases h
      · cases h
        refine .inl ⟨_, rfl, ?_, ?_, ?_, ?_⟩
        · simp_all
        all_goals omega
  · split at h
    · split at h
      · cases h
      · cases h
        refine .inr ⟨_, rfl, ?_, ?_, ?_⟩
        · simp_all
        all_goals omega
    · cases h

/-- A 32-bit aligned access in the register window reaches its slot. -/
theorem route_reg {p : Params} {off : Nat} (h : off < 256) (h4 : off % 4 = 0) :
    route p .w32 (p.regBase + off) = .ok (.reg off) := by
  unfold route
  rw [if_pos (by omega), if_neg (by simp), if_neg (by simpa [Nat.add_sub_cancel_left] using h4),
    Nat.add_sub_cancel_left]

/-- A byte access in the BUF window reaches its byte, the windows being disjoint (20_memory.md R70). -/
theorem route_buf {p : Params} (hp : p.Legal) {a : Nat} (h : a < p.bufBytes) :
    route p .w8 (p.bufBase + a) = .ok (.buf a) := by
  obtain ⟨-, -, -, hd⟩ := hp
  unfold route
  rw [if_neg (by omega), if_pos (by omega), if_neg (by simp), Nat.add_sub_cancel_left]

/-- Everything a host read statement can do when it answers a next state. -/
theorem hostRead_next {w : Width} {addr t : Nat} {s u : State} (h : hostRead w addr t s = .next u) :
    (∃ v, busRead w addr s = .done v ∧ u = advance { s with host := setVar t v s.host }) ∨
    (s.regs.status.busy = true ∧ u = recordHazard s ∧
      ∃ a, w = .w8 ∧ addr = s.params.bufBase + a ∧ a < s.params.bufBytes) := by
  unfold hostRead at h
  split at h
  · rename_i v hv; injection h with h; exact .inl ⟨v, hv, h.symm⟩
  · rename_i hv
    injection h with h
    refine .inr ?_
    unfold busRead at hv
    split at hv
    · cases hv
    · cases hv
    · rename_i a hr
      split at hv
      · rename_i hb
        rcases route_ok hr with ⟨_, ht, _⟩ | ⟨b, ht, hw, hlt, ha⟩
        · cases ht
        · cases ht; exact ⟨hb, h.symm, _, hw, ha, hlt⟩
      · cases hv
  · cases h

/-- Everything a host write statement can do when it answers a next state. -/
theorem hostWrite_next {w : Width} {addr : Nat} {v : Word} {s u : State} (h : hostWrite w addr v s = .next u) :
    (∃ off, w = .w32 ∧ addr = s.params.regBase + off ∧ off < 256 ∧ off % 4 = 0 ∧
      u = advance (writeSlot off v s)) ∨
    (∃ a, w = .w8 ∧ addr = s.params.bufBase + a ∧ a < s.params.bufBytes ∧
      ((s.regs.status.busy = false ∧ u = advance { s with buf := Memory.write s.buf a (v.setWidth 8) }) ∨
       (s.regs.status.busy = true ∧ u = recordHazard s))) := by
  unfold hostWrite busWrite at h
  rcases hr : route s.params w addr with r | t
  · rw [hr] at h; cases h
  · rw [hr] at h
    rcases route_ok hr with ⟨off, rfl, hw, hlt, h4, ha⟩ | ⟨a, rfl, hw, hlt, ha⟩
    · injection h with h; exact .inl ⟨off, hw, ha, hlt, h4, h.symm⟩
    · refine .inr ⟨a, hw, ha, hlt, ?_⟩
      cases hb : s.regs.status.busy
      · simp only [hb] at h; injection h with h; exact .inl ⟨rfl, h.symm⟩
      · simp only [hb] at h; injection h with h; exact .inr ⟨rfl, h.symm⟩

/-- A jump only moves the host's position. -/
theorem jumpTo_next {l : Nat} {s u : State} (h : jumpTo l s = .next u) :
    ∃ p, s.host.prog.findIdx? (fun st => st == .label l) = some p ∧
      u = { s with host := { s.host with pos := p } } := by
  unfold jumpTo at h
  split at h
  · rename_i p hp; injection h with h; exact ⟨p, hp, h.symm⟩
  · cases h

/-- Everything one statement of the host can do when it answers a next state: change the host only, write a register,
write a BUF byte while BUSY = 0, or record the hazard while BUSY = 1. -/
theorem execStmt_next {st : Stmt} {s u : State} (h : execStmt st s = .next u) :
    (∃ ha, u = { s with host := ha } ∧ ha.prog = s.host.prog) ∨
    (∃ off o, off < 256 ∧ off % 4 = 0 ∧ (st = .wr off o ∨ st = .writeAt .w32 (s.params.regBase + off) o) ∧
      u = advance (writeSlot off (operandValue o s.host) s)) ∨
    (∃ a o, a < s.params.bufBytes ∧ s.regs.status.busy = false ∧
      (st = .sb a o ∨ st = .writeAt .w8 (s.params.bufBase + a) o) ∧
      u = advance { s with buf := Memory.write s.buf a ((operandValue o s.host).setWidth 8) }) ∨
    (s.regs.status.busy = true ∧ u = recordHazard s ∧ ∃ a, a < s.params.bufBytes ∧
      ((∃ o, st = .sb a o ∨ st = .writeAt .w8 (s.params.bufBase + a) o) ∨
       (∃ t, st = .lb a t ∨ st = .readAt .w8 (s.params.bufBase + a) t))) := by
  cases st <;> simp only [execStmt] at h
  case wr off o =>
    rcases hostWrite_next h with ⟨off', _, ha, hlt, h4, hu⟩ | ⟨_, hw, _⟩
    · obtain rfl : off = off' := by omega
      exact .inr (.inl ⟨off, o, hlt, h4, .inl rfl, hu⟩)
    · cases hw
  case rd off t =>
    rcases hostRead_next h with ⟨v, _, hu⟩ | ⟨_, _, _, hw, _⟩
    · exact .inl ⟨_, hu, rfl⟩
    · cases hw
  case sb a o =>
    rcases hostWrite_next h with ⟨_, hw, _⟩ | ⟨a', _, ha, hlt, hu⟩
    · cases hw
    · obtain rfl : a = a' := by omega
      rcases hu with ⟨hb, hu⟩ | ⟨hb, hu⟩
      · exact .inr (.inr (.inl ⟨a, o, hlt, hb, .inl rfl, hu⟩))
      · exact .inr (.inr (.inr ⟨hb, hu, a, hlt, .inl ⟨o, .inl rfl⟩⟩))
  case lb a t =>
    rcases hostRead_next h with ⟨v, _, hu⟩ | ⟨hb, hu, a', _, ha, hlt⟩
    · exact .inl ⟨_, hu, rfl⟩
    · obtain rfl : a = a' := by omega
      exact .inr (.inr (.inr ⟨hb, hu, a, hlt, .inr ⟨t, .inl rfl⟩⟩))
  case bset t n l =>
    split at h
    · obtain ⟨p, _, hu⟩ := jumpTo_next h; exact .inl ⟨_, hu, rfl⟩
    · injection h with h; exact .inl ⟨_, h.symm, rfl⟩
  case jump l => obtain ⟨p, _, hu⟩ := jumpTo_next h; exact .inl ⟨_, hu, rfl⟩
  case label l => injection h with h; exact .inl ⟨_, h.symm, rfl⟩
  case writeAt w addr o =>
    rcases hostWrite_next h with ⟨off, rfl, rfl, hlt, h4, hu⟩ | ⟨a, rfl, rfl, hlt, hu⟩
    · exact .inr (.inl ⟨off, o, hlt, h4, .inr rfl, hu⟩)
    · rcases hu with ⟨hb, hu⟩ | ⟨hb, hu⟩
      · exact .inr (.inr (.inl ⟨a, o, hlt, hb, .inr rfl, hu⟩))
      · exact .inr (.inr (.inr ⟨hb, hu, a, hlt, .inl ⟨o, .inr rfl⟩⟩))
  case readAt w addr t =>
    rcases hostRead_next h with ⟨v, _, hu⟩ | ⟨hb, hu, a, rfl, rfl, hlt⟩
    · exact .inl ⟨_, hu, rfl⟩
    · exact .inr (.inr (.inr ⟨hb, hu, a, hlt, .inr ⟨t, .inr rfl⟩⟩))

/-- Everything a turn of the host can do when it answers a next state. -/
theorem hostTurn_next {s u : State} (h : hostTurn s = .next u) :
    s.fault = none ∧ ((s.host.prog[s.host.pos]? = none ∧ u = s) ∨
      ∃ st, s.host.prog[s.host.pos]? = some st ∧ execStmt st s = .next u) := by
  unfold hostTurn at h
  split at h
  · cases h
  · rename_i hf
    refine ⟨hf, ?_⟩
    split at h
    · rename_i hp; injection h with h; exact .inl ⟨hp, h.symm⟩
    · rename_i st hp; exact .inr ⟨st, hp, h⟩

/-- Everything a turn of the engine can do when it answers a next state: pass, complete the latched command, or fail
with an error code that is not NONE. -/
theorem engineTurn_next {s u : State} (h : engineTurn s = .next u) :
    (s.latch = none ∧ u = s) ∨
    ∃ L, s.latch = some L ∧
      ((∃ i r, decode L.cmd = .ok i ∧ ChecksPass i L s.params.bufBytes ∧ bodyOf i L s.buf = .ok r ∧
          u = complete r s) ∨
       (∃ c, c ≠ .none ∧ u = failWith c s)) := by
  unfold engineTurn at h
  split at h
  · rename_i hL; injection h with h; exact .inl ⟨hL, h.symm⟩
  · rename_i L hL
    refine .inr ⟨L, hL, ?_⟩
    split at h
    · injection h with h; exact .inr ⟨.illegalCmd, by simp, h.symm⟩
    · rename_i i hi
      obtain ⟨L', hL', h⟩ := exec_next h
      rw [hL] at hL'; cases hL'
      rcases h with ⟨r, hc, hb, hu⟩ | ⟨c, hc, hu⟩
      · exact .inl ⟨i, r, hi, hc, hb, hu⟩
      · exact .inr ⟨c, hc, hu⟩

/-- The engine always has a next state: it never stops on a latched word. -/
theorem engineTurn_total (s : State) : ∃ u, engineTurn s = .next u := by
  unfold engineTurn
  split
  · exact ⟨_, rfl⟩
  · rename_i L hL
    split
    · exact ⟨_, rfl⟩
    · rename_i i _; rw [exec_eq_perform, perform_latched hL]; exact ⟨_, rfl⟩

/-- A step is the turn of the agent that moves. -/
theorem step_eq (s : State) : step s = turnOf s.mover s.popped := by
  unfold step takeTurn State.mover State.popped
  cases h : s.sched with
  | nil =>
    simp only [List.tail_nil]
    congr 1
    rw [← h]
  | cons a rest => rfl

@[simp] theorem popped_params (s : State) : s.popped.params = s.params := rfl
@[simp] theorem popped_regs (s : State) : s.popped.regs = s.regs := rfl
@[simp] theorem popped_latch (s : State) : s.popped.latch = s.latch := rfl
@[simp] theorem popped_buf (s : State) : s.popped.buf = s.buf := rfl
@[simp] theorem popped_fault (s : State) : s.popped.fault = s.fault := rfl
@[simp] theorem popped_host (s : State) : s.popped.host = s.host := rfl
@[simp] theorem popped_draws (s : State) : s.popped.draws = s.draws := rfl

/-- The addresses that a reset draws lie in BUF and in a destination range (70_reset_and_hazards.md R231). -/
theorem mem_cutShortAddrs {cmd : Except DecodeError Instr} {L : Latch} {n a : Nat} :
    a ∈ cutShortAddrs cmd L n ↔
      a < n ∧ ∃ i, cmd = .ok i ∧ ∃ r ∈ (operandRanges i L).dests, r.start ≤ a ∧ a < r.start + r.len := by
  unfold cutShortAddrs
  cases cmd with
  | error e => simp
  | ok i =>
    simp only [List.mem_flatMap, clippedAddrs, List.mem_map, List.mem_range, Except.ok.injEq, exists_eq_left']
    constructor
    · rintro ⟨r, hr, j, hj, rfl⟩
      exact ⟨by omega, r, hr, by omega, by omega⟩
    · rintro ⟨hn, r, hr, h1, h2⟩
      exact ⟨r, hr, a - r.start, by omega, by omega⟩

/-- A drawn cell: an address of the list with one of the fresh free bytes. -/
theorem mem_drawBytes {addrs : List Nat} {d : Nat} {c : Host.Cell} :
    c ∈ drawBytes addrs d ↔ ∃ k, addrs[k]? = some c.1 ∧ c.2 = Config.freeByte (d + k) := by
  unfold drawBytes
  rw [List.mem_mapIdx]
  constructor
  · rintro ⟨k, hk, rfl⟩; exact ⟨k, by simp [hk], rfl⟩
  · rintro ⟨k, hk, hc⟩
    obtain ⟨h, hk⟩ := List.getElem?_eq_some_iff.1 hk
    exact ⟨k, h, by rw [hk, ← hc]⟩

/-- The addresses that a reset draws: none when no command is latched. -/
def resetAddrs (s : State) : List Nat :=
  match s.latch with
  | none => []
  | some L => cutShortAddrs (decode L.cmd) L s.params.bufBytes

theorem resetTurn_buf (s : State) :
    (resetTurn s).buf = Memory.writeAll s.buf (drawBytes (resetAddrs s) s.draws) := rfl

theorem resetTurn_draws (s : State) : (resetTurn s).draws = s.draws + (resetAddrs s).length := rfl

end Sys2Proof.Machine
end

