-- ==== Sys2Proof/Tests/Slice0.lean ====
section
/-! SUPPORT. The model's own tests: expected values from spec/95_test_vectors.md (the vector is named at each test) or
from a rule; and for each statement of Sys2Proof/Certificates/Slice0/Obligations.lean that has hypotheses a theorem
`witness_<name>` which meets them. -/

namespace Sys2Proof.Tests

open Sys2Proof Sys2Proof.Machine

/-! ## Helpers -/

/-- Cells holding the bytes `bs` from address `A` on. -/
def cells (A : Nat) (bs : List Nat) : Memory :=
  Memory.writeAll [] (bs.mapIdx fun k b => (A + k, BitVec.ofNat 8 b))

/-- The bytes from `A` on. -/
def bytesAt (s : State) (A n : Nat) : List Nat := (List.range n).map fun j => (Memory.read s.buf (A + j)).toNat

/-- The reset state with other registers and another BUF. -/
def ready (r : Regs) (m : Memory) : State := { State.reset with regs := r, buf := m }

/-- One step that performs the command word `w`: STATUS, RESULT_LEN, RESULT_AUX, FIRST_MISM afterwards, and the bytes
from `A` on. -/
def performs (w : Nat) (r : Regs) (m : Memory) (status len aux first A : Nat) (bytes : List Nat) : Bool :=
  match step ((ready r m).withFetchWord 32 w) with
  | .next t =>
    (readSlot 0x20 t).toNat == status && (readSlot 0x40 t).toNat == len && (readSlot 0x44 t).toNat == aux &&
      (readSlot 0x48 t).toNat == first && bytesAt t A bytes.length == bytes
  | .fault _ => false
  | .refused _ => false

/-- A state with a latched command. -/
def latched (L : Latch) (m : Memory) : State :=
  { State.reset with
    latch := some L
    buf := m
    regs := { Regs.reset with cmd := L.cmd, status := Regs.reset.status.issued } }

/-- The reset state with a host about to execute `st`. -/
def hosting (st : Stmt) : State := { State.reset with host := { prog := [st], pos := 0, vars := [] } }

/-- The next state of an outcome, or a given state. -/
def nextOr (d : State) (o : Host.Outcome State Fault Refusal) : State :=
  match o with
  | .next t => t
  | .fault _ => d
  | .refused _ => d

/-! ## Well-formedness (30_encoding.md R92 to R95): one ill-formed term for each check -/

theorem test_wf_table : ∀ i ∈ [Instr.nop, .bframe, .bdeframe, .bdeframeS, .render, .extract, .pframe, .psplit],
    (encodeFields i).wellFormed = true ∧ i.wellFormed = true := by decide

/-- R95: an RSV bit is set. -/
theorem test_wf_rsv : CommandFields.wellFormed { op := 1#4, strict := false, rsv := 1#27 } = false := by decide

/-- R94: OP 0x7 is reserved. -/
theorem test_wf_op : CommandFields.wellFormed { op := 7#4, strict := false, rsv := 0#27 } = false := by decide

/-- R93: S = 1 with OP 0x1. -/
theorem test_wf_strict : CommandFields.wellFormed { op := 1#4, strict := true, rsv := 0#27 } = false := by decide

/-! ## Decoding: the words of 30_encoding.md R92, written out bit by bit -/

theorem test_decode_nop : decode 0b00000000000000000000000000000000#32 = .ok .nop := by decide
theorem test_decode_bframe : decode 0b00000000000000000000000000000001#32 = .ok .bframe := by decide
theorem test_decode_bdeframe : decode 0b00000000000000000000000000000010#32 = .ok .bdeframe := by decide
theorem test_decode_bdeframeS : decode 0b00000000000000000000000000010010#32 = .ok .bdeframeS := by decide
theorem test_decode_render : decode 0b00000000000000000000000000000011#32 = .ok .render := by decide
theorem test_decode_extract : decode 0b00000000000000000000000000000100#32 = .ok .extract := by decide
theorem test_decode_pframe : decode 0b00000000000000000000000000000101#32 = .ok .pframe := by decide
theorem test_decode_psplit : decode 0b00000000000000000000000000000110#32 = .ok .psplit := by decide

/-- T6.2 to T6.7: the words that are no command. -/
theorem test_decode_illegal :
    [0x07#32, 0x0F#32, 0x11#32, 0x10#32, 0x21#32, 0x80000002#32].map (fun w => (decode w).isOk) =
      [false, false, false, false, false, false] := by decide

theorem test_table_word : decodeTableWord 32 0x12 = some .bdeframeS ∧ decodeTableWord 32 0x17 = none := by decide

/-! ## One step per vector -/

/-- T6.1, with the geometry of reset. -/
theorem test_nop : performs 0x00 Regs.reset [] 0x002 0 0 0xFFFFFFFF 0 [] = true := by decide

/-- T6.2 and T6.6: an illegal word. -/
theorem test_illegal_words : performs 0x07 Regs.reset [] 0x106 0 0 0xFFFFFFFF 0 [] = true ∧
    performs 0x21 Regs.reset [] 0x106 0 0 0xFFFFFFFF 0 [] = true := by decide

/-- T1.5. -/
theorem test_bframe_four_bytes :
    performs 0x01 { Regs.reset with srcLen := 4, dstAddr := 0x10 } (cells 0 [0x7B, 0x7D, 0x0A, 0x01]) 0x002 64 0
      0xFFFFFFFF 0x10 [0x7B, 0x06, 0x7D, 0x06, 0x0A, 0x02, 0x01, 0x01] = true := by decide

/-- T1.6: OVERLAP, and no byte written. -/
theorem test_bframe_overlap :
    performs 0x01 { Regs.reset with srcLen := 2, dstAddr := 0x01 } (cells 0 [0x41, 0x42]) 0x406 0 0 0xFFFFFFFF 0
      [0x41, 0x42, 0x00, 0x00, 0x00] = true := by decide

/-- T2.2: a short chunk is dropped. -/
theorem test_bdeframe_short_chunk :
    performs 0x02 { Regs.reset with srcLen := 31, dstAddr := 0x10 } (cells 0 [0x41, 0x02, 0x42, 0x02]) 0x002 1 0
      0xFFFFFFFF 0x10 [0x41, 0x00] = true := by decide

/-- T2.8: RANGE. -/
theorem test_bdeframe_range :
    performs 0x02 { Regs.reset with srcAddr := 0xFE, srcLen := 32, dstAddr := 0x10 } (cells 0xFE [0x41, 0x02]) 0x306 0 0
      0xFFFFFFFF 0x10 [0x00, 0x00] = true := by decide

/-- T3.2. -/
theorem test_bdeframeS_mismatch :
    performs 0x12 { Regs.reset with srcLen := 32, dstAddr := 0x10, dst2Addr := 0x20 } (cells 0 [0x41, 0x02, 0x42, 0x03])
      0x00A 2 1 1 0x10 [0x41, 0x42, 0, 0, 0, 0, 0, 0, 0, 0, 0, 0, 0, 0, 0, 0, 0x40] = true := by decide

/-- T3.10, with DST_ADDR moved to 0x30 (notes/assumptions/16.md): the padding bits of the bitmap are written 0. -/
theorem test_bdeframeS_padding :
    performs 0x12 { Regs.reset with srcLen := 144, dstAddr := 0x30, dst2Addr := 0x20 }
      (Memory.writeAll (cells 7 [0x01]) [(0x20, 0xFF#8), (0x21, 0xFF#8)]) 0x00A 9 1 3 0x20 [0x10, 0x00] = true := by
  decide

/-- T4.1. -/
theorem test_render_blocks :
    performs 0x03 { Regs.reset with frameW := 4, frameH := 4, blockSize := 2, srcLen := 4, dstAddr := 0x10 }
      (cells 0 [0x40]) 0x002 16 0 0xFFFFFFFF 0x10 [0, 0, 255, 255, 0, 0, 255, 255, 0, 0, 0, 0, 0, 0, 0, 0] = true := by
  decide

/-- T4.3: bits past the stream's end are 0, although the byte holds 1s there. -/
theorem test_render_padding :
    performs 0x03
      { Regs.reset with frameW := 2, frameH := 2, blockSize := 1, srcLen := 6, dstAddr := 0x10, frameIndex := 1 }
      (cells 0 [0xFF]) 0x002 4 0 0xFFFFFFFF 0x10 [255, 255, 0, 0] = true := by decide

/-- T4.5 and T4.6: the threshold. -/
theorem test_extract_threshold :
    performs 0x04 { Regs.reset with frameW := 2, frameH := 2, blockSize := 2, dstAddr := 0x10 }
      (cells 0 [0x7F, 0x7F, 0x7F, 0x7F]) 0x002 1 0 0xFFFFFFFF 0x10 [0x00] = true ∧
    performs 0x04 { Regs.reset with frameW := 2, frameH := 2, blockSize := 2, dstAddr := 0x10 }
      (cells 0 [0x7F, 0x7F, 0x7F, 0x80]) 0x002 1 0 0xFFFFFFFF 0x10 [0x80] = true := by decide

/-- T4.9: the other bits of the boundary byte are kept. -/
theorem test_extract_keeps_neighbours :
    performs 0x04 { Regs.reset with frameW := 2, frameH := 2, blockSize := 1, dstAddr := 0x10, frameIndex := 1 }
      (Memory.write (cells 0 [0xFF, 0x00, 0xFF, 0x00]) 0x10 0xFF#8) 0x002 8 0 0xFFFFFFFF 0x10 [0xFA] = true := by decide

/-- T5.1. -/
theorem test_pframe :
    performs 0x05 { Regs.reset with srcLen := 2, src2Addr := 0x08, src2Len := 2, dstAddr := 0x10 }
      (Memory.writeAll (cells 0 [0x7B, 0x7D]) [(8, 1#8), (9, 2#8)]) 0x002 5 0 0xFFFFFFFF 0x10
      [0x7B, 0x7D, 0x0A, 0x01, 0x02] = true := by decide

/-- T5.2. -/
theorem test_pframe_sentinel :
    performs 0x05 { Regs.reset with srcLen := 3, src2Addr := 0x08, src2Len := 1, dstAddr := 0x10 }
      (cells 0 [0x7B, 0x0A, 0x7D]) 0x506 0 0 0xFFFFFFFF 0x10 [0, 0, 0] = true := by decide

/-- T5.10: the first 0x0A is the separator. -/
theorem test_psplit :
    performs 0x06 { Regs.reset with srcAddr := 0x10, srcLen := 4 } (cells 0x10 [0x41, 0x0A, 0x0A, 0x42]) 0x002 1 2
      0xFFFFFFFF 0x10 [0x41, 0x0A, 0x0A, 0x42] = true := by decide

/-- T5.7. -/
theorem test_psplit_framing :
    performs 0x06 { Regs.reset with srcAddr := 0x10, srcLen := 3 } (cells 0x10 [1, 2, 3]) 0x606 0 0 0xFFFFFFFF 0x10
      [1, 2, 3] = true := by decide

/-- T6.9: BAD_CONFIG before RANGE; T6.15: an address sum is not wrapped. -/
theorem test_priority_and_width :
    performs 0x03 { Regs.reset with frameW := 5, frameH := 4, blockSize := 2, srcLen := 0xFFFFFFFF } [] 0x206 0 0
      0xFFFFFFFF 0 [] = true ∧
    performs 0x01 { Regs.reset with srcAddr := 0xFFFFFFFF, srcLen := 2 } [] 0x306 0 0 0xFFFFFFFF 0 [] = true := by decide

/-! ## Registers and the host -/

/-- T7.1 to T7.7. -/
theorem test_reset_reads : [0x00, 0x04, 0x14, 0x18, 0x20, 0x48, 0x1C].map (fun o => (readSlot o State.reset).toNat) =
    [0x49534701, 0x100, 8, 0, 0, 0xFFFFFFFF, 0] := by decide

/-- T7.10 and T7.11: BPF. -/
theorem test_bpf :
    readSlot 0x18 (writeSlot 0x10 8 (writeSlot 0x0C 1080 (writeSlot 0x08 1920 State.reset))) = 32400 ∧
    readSlot 0x18 (writeSlot 0x10 7 (writeSlot 0x0C 1080 (writeSlot 0x08 1920 State.reset))) = 0 := by decide

/-- T7.12 to T7.15. -/
theorem test_reserved_writes :
    readSlot 0x08 (writeSlot 0x08 0x00010040 State.reset) = 0x40 ∧ readSlot 0x14 (writeSlot 0x14 3 State.reset) = 8 ∧
    readSlot 0x80 (writeSlot 0x80 0x12345678 State.reset) = 0 ∧
    readSlot 0x00 (writeSlot 0x00 0 State.reset) = 0x49534701 := by decide

/-- T6.17: a CMD write while BUSY = 1 is discarded and sets OVERRUN; writing 0x10 to STATUS clears it, 0xF does not. -/
theorem test_overrun :
    let s := writeSlot 0x1C 5 (writeSlot 0x1C 0 State.reset)
    readSlot 0x20 s = 0x11 ∧ readSlot 0x1C s = 0 ∧ readSlot 0x20 (writeSlot 0x20 0x10 s) = 0x01 ∧
      readSlot 0x20 (writeSlot 0x20 0x0F s) = 0x11 := by decide

/-- T6.18: a register write while BUSY = 1 leaves the latched command alone. -/
theorem test_latch_frozen :
    let s := writeSlot 0x28 1 (writeSlot 0x1C 1 (ready { Regs.reset with srcLen := 2, dstAddr := 0x10 } []))
    (nextState (engineTurn s)).map (fun t => (readSlot 0x40 t, readSlot 0x28 t)) = some (32, 1) := by decide

/-- 70_reset_and_hazards.md R240: a host BUF access while BUSY = 1. -/
theorem test_buf_while_busy :
    (nextState (execStmt (.sb 0x30 (.lit 7)) (latched (latchOf 0 Regs.reset) []))).map (fun t => (t.fault, t.buf)) =
      some (some .bufWhileBusy, []) := by decide

/-- 20_memory.md R62, R67: the first BUF address that does not exist, and a misaligned register access. -/
theorem test_refused_accesses :
    busRead .w8 (0x20000 + 256) State.reset = .refused .outsideWindows ∧
    busRead .w32 0x10002 State.reset = .refused .registerAccessMisaligned := by decide

/-- 30_encoding.md R98: `BSET t, 2, fail` branches exactly when bit 2 is 1. -/
theorem test_bset :
    let s := { State.reset with host := { prog := [.bset 0 2 9, .jump 9, .label 9], pos := 0, vars := [(0, 4#32)] } }
    let u := { State.reset with host := { prog := [.bset 0 2 9, .jump 9, .label 9], pos := 0, vars := [(0, 2#32)] } }
    (nextState (step s)).map (fun t => t.host.pos) = some 2 ∧ (nextState (step u)).map (fun t => t.host.pos) = some 1 := by
  decide

/-! ## Witnesses: for each statement with hypotheses, concrete data that meet them -/

/-- Latches on which the commands' checks pass. -/
def frameLatch : Latch := latchOf 0x01 { Regs.reset with srcLen := 2, dstAddr := 0x10 }
def deframeLatch (w : Word) : Latch :=
  latchOf w { Regs.reset with srcAddr := 0x10, srcLen := 32, dstAddr := 0x20, dst2Addr := 0x30 }
def renderLatch : Latch :=
  latchOf 0x03 { Regs.reset with frameW := 4, frameH := 4, blockSize := 2, srcLen := 4, dstAddr := 0x10 }
def extractLatch : Latch :=
  latchOf 0x04 { Regs.reset with frameW := 4, frameH := 4, blockSize := 2, srcAddr := 0x10, dstAddr := 0x30 }
def pframeLatch : Latch :=
  latchOf 0x05 { Regs.reset with srcLen := 2, src2Addr := 0x08, src2Len := 2, dstAddr := 0x10 }
def psplitLatch (n : Word) : Latch := latchOf 0x06 { Regs.reset with srcAddr := 0x10, srcLen := n }

/-- A latch for each command, checks passing. -/
def goodLatch : Instr → Latch
  | .nop => latchOf 0x00 Regs.reset
  | .bframe => frameLatch
  | .bdeframe => deframeLatch 0x02
  | .bdeframeS => deframeLatch 0x12
  | .render => renderLatch
  | .extract => extractLatch
  | .pframe => pframeLatch
  | .psplit => psplitLatch 5

/-- BUF bytes for them: "{}" and an archive. -/
def goodBuf : Memory := Memory.writeAll (cells 0 [0x7B, 0x7D]) [(8, 1#8), (9, 2#8)]

/-- A host about to execute `st` while a command runs, in the host's turn. -/
def busyHost (st : Stmt) : State :=
  { latched frameLatch goodBuf with host := { prog := [st], pos := 0, vars := [] }, sched := [.host] }

/-- Illegal: OP 7, S = 1 with OP 1, RSV bit 5. Legal: OP 6, S = 1 with OP 2. -/
theorem witness_IllegalWordFails :
    let bad := fun w : Word => 7 ≤ (w.extractLsb' 0 4).toNat ∨ (w.getLsbD 4 = true ∧ w.extractLsb' 0 4 ≠ 2#4) ∨
      w.extractLsb' 5 27 ≠ 0#27
    (∃ (s : State) (L : Latch), s.latch = some L ∧ bad L.cmd) ∧ bad 0x07 ∧ bad 0x11 ∧ bad 0x21 ∧
    (∃ (s : State) (L : Latch), s.latch = some L ∧ ¬ bad L.cmd) ∧ ¬ bad 0x06 ∧ ¬ bad 0x12 :=
  ⟨⟨latched (latchOf 0x0F Regs.reset) [], _, rfl, by decide⟩, by decide, by decide, by decide,
    ⟨latched (latchOf 0x06 Regs.reset) [], _, rfl, by decide⟩, by decide, by decide⟩

theorem witness_StepRunsDecodedCommand :
    ∃ (s : State) (L : Latch) (i : Instr), s.latch = some L ∧ decode L.cmd = .ok i ∧ s.mover = .engine :=
  ⟨State.reset.withFetchWord 32 0x01, _, .bframe, rfl, by decide, by decide⟩

theorem witness_IssuedCommandIsPerformed :
    ∃ (s : State) (i : Instr), s.params.Legal ∧ s.latch = none ∧ s.regs.status.busy = false ∧ s.sched = [] ∧
      s.hostAt (.wr 0x1C (.lit (encode i))) :=
  ⟨hosting (.wr 0x1C (.lit (encode .psplit))), .psplit, by decide, rfl, rfl, rfl, rfl, rfl⟩

/-- The smallest and the largest BUF. -/
theorem witness_LaunchStateValues :
    Params.Legal { bufBytes := 1, regBase := 0, bufBase := 256 } ∧
    Params.Legal { bufBytes := 2 ^ 28, regBase := 2 ^ 28, bufBase := 0 } := by decide

/-- Both clauses: byte 0x13, the last that the BFRAME cut short may have written, and byte 0x14. -/
theorem witness_ResetDuringRun :
    let s := { latched frameLatch goodBuf with sched := [.reset] }
    Memory.wf s.buf ∧ s.mover = .reset ∧
    (∃ L i r, s.latch = some L ∧ decode L.cmd = .ok i ∧ r ∈ (operandRanges i L).dests ∧ r.start ≤ 0x13 ∧
      0x13 < r.start + r.len ∧ 0x13 < s.params.bufBytes) ∧
    ¬ ∃ L i r, s.latch = some L ∧ decode L.cmd = .ok i ∧ r ∈ (operandRanges i L).dests ∧ r.start ≤ 0x14 ∧
      0x14 < r.start + r.len ∧ 0x14 < s.params.bufBytes := by
  refine ⟨by decide, by decide, ⟨frameLatch, .bframe, ⟨0x10, 4⟩, rfl, by decide, by decide, by decide, by decide,
    by decide⟩, ?_⟩
  rintro ⟨L, i, r, hL, hi, hr, -, h, -⟩
  cases hL
  have hd : decode frameLatch.cmd = .ok .bframe := by decide
  have hi' : decode frameLatch.cmd = .ok i := hi
  rw [hd] at hi'
  cases hi'
  have hm : (operandRanges .bframe frameLatch).dests = [⟨0x10, 4⟩] := by decide
  rw [hm, List.mem_singleton] at hr
  subst hr
  simp at h

theorem witness_HardwiredRegisters : ∃ s : State, s.params.Legal := ⟨State.reset, by decide⟩

/-- A step of the host, and a turn of the engine without a latch. -/
theorem witness_ResultRegistersReadOnly :
    (∃ s t : State, step s = .next t ∧ s.mover = .host) ∧
    ∃ s t : State, step s = .next t ∧ s.mover = .engine ∧ s.latch = none :=
  ⟨⟨hosting (.wr 0x40 (.lit 7)), _, rfl, rfl⟩, { State.reset with sched := [.engine] }, _, rfl, rfl, rfl⟩

/-- A legal geometry, the least one, and illegal ones (40_command_lifecycle.md R119). -/
theorem witness_BpfReadsCurrentGeometry :
    let legal := fun W H BS : Nat => 1 ≤ BS ∧ 1 ≤ W ∧ 1 ≤ H ∧ W % BS = 0 ∧ H % BS = 0
    legal 1 1 1 ∧ legal 4 4 2 ∧ ¬ legal 0 1 1 ∧ ¬ legal 5 4 2 ∧
    ∃ (s : State) (W H BS : Nat), W = s.regs.frameW.toNat ∧ H = s.regs.frameH.toNat ∧ BS = s.regs.blockSize.toNat ∧
      legal W H BS :=
  ⟨by decide, by decide, by decide, by decide,
    ready { Regs.reset with frameW := 4, frameH := 4, blockSize := 2 } [], 4, 4, 2, rfl, rfl, rfl, by decide⟩

/-- The first and the last writable register. -/
theorem witness_WritableRegistersReadBack :
    ∀ off ∈ [0x08, 0x3C], off ∈ [0x08, 0x0C, 0x10, 0x24, 0x28, 0x2C, 0x30, 0x34, 0x38, 0x3C] := by decide

theorem witness_ReservedSpaceReadsZero :
    (∀ off ∈ [0x4C, 0xFC], 0x4C ≤ off ∧ off ≤ 0xFC) ∧ ∀ n ∈ [5, 7, 12], (5 ≤ n ∧ n ≤ 7) ∨ 12 ≤ n := by decide

theorem witness_CmdWriteIssuesOrOverruns :
    (∃ s : State, s.regs.status.busy = true) ∧ ∃ s : State, s.regs.status.busy = false :=
  ⟨⟨latched frameLatch [], rfl⟩, State.reset, rfl⟩

theorem witness_WriteWhileBusyLeavesCommand :
    ∃ (s t : State) (off : Nat), s.regs.status.busy = true ∧ engineTurn s = .next t ∧ s.latch ≠ none ∧ off ≠ 0x1C ∧
      off ≠ 0x20 :=
  ⟨latched frameLatch goodBuf, _, 0x28, rfl, rfl, by decide, by decide, by decide⟩

/-- A step that sets OVERRUN, and a step that clears it. -/
theorem witness_OverrunChangesOnlyByItsEvents :
    (∃ s t : State, step s = .next t ∧ s.regs.status.overrun = false ∧ t.regs.status.overrun = true) ∧
    ∃ s t : State, step s = .next t ∧ s.regs.status.overrun = true ∧ t.regs.status.overrun = false :=
  ⟨⟨busyHost (.wr 0x1C (.lit 0)), _, rfl, by decide, by decide⟩,
    { hosting (.wr 0x20 (.lit 0x10)) with regs := { Regs.reset with status := Regs.reset.status.overran } }, _, rfl,
    by decide, by decide⟩

/-- A flag changes by an accepted CMD write, by the engine, by a reset; and a command runs. -/
theorem witness_FlagsChangeOnlyByTheirEvents :
    (∀ s ∈ [hosting (.wr 0x1C (.lit 5)), latched frameLatch goodBuf, { latched frameLatch [] with sched := [.reset] }],
      (nextState (step s)).map (fun t =>
        decide (t.regs.status = { s.regs.status with overrun := t.regs.status.overrun })) = some false) ∧
    ∃ (i : Instr) (s t : State), exec i s = .next t :=
  ⟨by simp only [List.forall_mem_cons]; exact ⟨by decide, by rfl, by rfl, by simp⟩,
    .nop, latched (goodLatch .nop) [], _, rfl⟩

theorem witness_HostRegisterAccess :
    (∃ (s : State) (o : Operand), 0xFC < 256 ∧ 0xFC % 4 = 0 ∧ s.hostAt (.wr 0xFC o)) ∧
    ∃ (s : State) (x y : Nat), 0x00 < 256 ∧ 0x00 % 4 = 0 ∧ s.hostAt (.rd 0x00 x) ∧ y ≠ x :=
  ⟨⟨hosting (.wr 0xFC (.lit 0)), _, by decide, by decide, rfl, rfl⟩,
    hosting (.rd 0x00 7), 7, 8, by decide, by decide, ⟨rfl, rfl⟩, by decide⟩

/-- The last byte of BUF, and the first address past it. -/
theorem witness_HostByteAccess :
    (∃ (s : State) (o : Operand), s.params.Legal ∧ Memory.wf s.buf ∧ s.hostAt (.sb 255 o) ∧ 255 < s.params.bufBytes ∧
      s.regs.status.busy = false) ∧
    (∃ (s : State) (x : Nat), s.params.Legal ∧ Memory.wf s.buf ∧ s.hostAt (.lb 255 x) ∧ 255 < s.params.bufBytes ∧
      s.regs.status.busy = false) ∧
    (∃ (s : State) (o : Operand), s.params.Legal ∧ Memory.wf s.buf ∧ s.hostAt (.sb 256 o) ∧ s.params.bufBytes ≤ 256) ∧
    ∃ (s : State) (x : Nat), s.params.Legal ∧ Memory.wf s.buf ∧ s.hostAt (.lb 256 x) ∧ s.params.bufBytes ≤ 256 :=
  ⟨⟨hosting (.sb 255 (.lit 1)), _, by decide, by decide, ⟨rfl, rfl⟩, by decide, rfl⟩,
    ⟨hosting (.lb 255 1), _, by decide, by decide, ⟨rfl, rfl⟩, by decide, rfl⟩,
    ⟨hosting (.sb 256 (.lit 1)), _, by decide, by decide, ⟨rfl, rfl⟩, by decide⟩,
    hosting (.lb 256 1), _, by decide, by decide, ⟨rfl, rfl⟩, by decide⟩

/-- Accesses with a meaning (the last register slot, the last BUF byte) and without (a 16-bit access, an address outside
both windows). -/
theorem witness_OtherAccessesRefused :
    (∃ (s : State) (x : Nat), s.params.Legal ∧ s.hostAt (.readAt .w32 (s.params.regBase + 0xFC) x)) ∧
    (∃ (s : State) (x : Nat), s.params.Legal ∧ s.hostAt (.readAt .w16 s.params.regBase x)) ∧
    (∃ (s : State) (o : Operand), s.params.Legal ∧ s.hostAt (.writeAt .w8 (s.params.bufBase + 255) o)) ∧
    ∃ (s : State) (o : Operand), s.params.Legal ∧ s.hostAt (.writeAt .w8 (s.params.bufBase + 256) o) :=
  ⟨⟨hosting (.readAt .w32 0x100FC 1), 1, by decide, rfl, rfl⟩,
    ⟨hosting (.readAt .w16 0x10000 1), 1, by decide, rfl, rfl⟩,
    ⟨hosting (.writeAt .w8 0x200FF (.lit 1)), _, by decide, rfl, rfl⟩,
    hosting (.writeAt .w8 0x20100 (.lit 1)), _, by decide, rfl, rfl⟩

theorem witness_BufAccessWhileBusyFaults :
    (∃ s : State, s.params.Legal ∧ s.regs.status.busy = true ∧ 255 < s.params.bufBytes ∧ s.hostTouchesBuf 255) ∧
    ∃ (s : State) (f : HostFault), s.fault = some f :=
  ⟨⟨busyHost (.lb 255 1), by decide, rfl, by decide, .inr ⟨1, .inl ⟨rfl, rfl⟩⟩⟩,
    { State.reset with fault := some .bufWhileBusy }, _, rfl⟩

theorem witness_ReadsHaveNoSideEffects :
    (∃ (s t : State), hostRead .w32 0x10020 1 s = .next t ∧ t.fault = s.fault ∧ s.fault = none) ∧
    ∃ off off' : Nat, off ≠ 0x1C ∧ off ≠ 0x20 ∧ off' ≠ off ∧ off' ≠ 0x18 :=
  ⟨⟨State.reset, _, rfl, rfl, rfl⟩, 0x24, 0x28, by decide, by decide, by decide, by decide⟩

/-- A taken branch, one not taken, a jump, and a label as the next statement. -/
theorem witness_HostBranches :
    let at_ := fun (pos : Nat) (v : Word) =>
      { State.reset with host := { prog := [.bset 0 2 9, .jump 9, .label 9], pos := pos, vars := [(0, v)] } }
    (∀ pos v, (at_ pos v).host.prog.findIdx? (fun st => st == .label 9) = some 2) ∧
    (at_ 0 4).hostAt (.bset 0 2 9) ∧ (hostVar (at_ 0 4).host 0).getLsbD 2 = true ∧
    (at_ 0 2).hostAt (.bset 0 2 9) ∧ (hostVar (at_ 0 2).host 0).getLsbD 2 = false ∧
    (at_ 1 0).hostAt (.jump 9) ∧ (at_ 2 0).hostAt (.label 9) :=
  ⟨fun _ _ => rfl, ⟨rfl, rfl⟩, by decide, ⟨rfl, rfl⟩, by decide, ⟨rfl, rfl⟩, ⟨rfl, rfl⟩⟩

theorem witness_CheckedProgramNeverRefused :
    ∃ s : State, programOk s.params s.host.prog = true ∧ s.host.prog ≠ [] :=
  ⟨{ State.reset with host := { prog := stmtsRun .bframe 0 1 ++ [.lb 0 2], pos := 0, vars := [] } }, by decide, by decide⟩

/-- A byte outside BFRAME's destination: the one below it. -/
theorem witness_CommandFrame :
    ∃ (i : Instr) (s t : State) (L : Latch), exec i s = .next t ∧ s.latch = some L ∧
      ∀ r ∈ (operandRanges i L).dests, 0x0F < r.start ∨ r.start + r.len ≤ 0x0F :=
  ⟨.bframe, latched frameLatch goodBuf, _, frameLatch, rfl, rfl, by decide⟩

/-- A command that fails, and one that does not. -/
theorem witness_FailedCommandEffects :
    (∃ s t : State, exec .bframe s = .next t ∧ t.regs.status.err = true) ∧
    ∃ s t : State, exec .nop s = .next t ∧ t.regs.status.err = false :=
  ⟨⟨latched (latchOf 1 { Regs.reset with srcAddr := 0x101 }) [], _, rfl, by rfl⟩,
    latched (goodLatch .nop) [], _, rfl, by rfl⟩

/-- RENDER with an illegal and with a legal geometry, and a command without one. -/
theorem witness_BadConfigExactlyIllegalGeometry :
    (∃ s t : State, exec .render s = .next t ∧ t.regs.status.errCode = .badConfig) ∧
    (∃ s t : State, exec .render s = .next t ∧ t.regs.status.errCode = .none) ∧
    ∃ s t : State, Instr.nop ≠ .render ∧ Instr.nop ≠ .extract ∧ exec .nop s = .next t :=
  ⟨⟨latched (latchOf 3 Regs.reset) [], _, rfl, by rfl⟩, ⟨latched renderLatch [], _, rfl, by rfl⟩,
    latched (goodLatch .nop) [], _, by decide, by decide, rfl⟩

/-- RENDER's frame ends one byte past BUF, and at its end; EXTRACT's; and a command without a geometry. -/
theorem witness_RangeExactlyOutsideBuf :
    let L := fun d : Word => { renderLatch with dstAddr := d }
    let E := fun d : Word => { extractLatch with dstAddr := d }
    (∀ (d : Word) (s : State), s = latched (L d) [] → s.latch = some (L d) ∧ s.params.bufBytes = 256) ∧
    GeometryLegal (L 0).frameW.toNat (L 0).frameH.toNat (L 0).blockSize.toNat ∧
    256 < (L 241).dstAddr.toNat + (L 241).frameW.toNat * (L 241).frameH.toNat ∧
    ¬ 256 < (L 240).dstAddr.toNat + (L 240).frameW.toNat * (L 240).frameH.toNat ∧
    GeometryLegal (E 0).frameW.toNat (E 0).frameH.toNat (E 0).blockSize.toNat ∧
    256 < (E 256).dstAddr.toNat + (0 * 4) / 8 + (((0 + 1) * 4 + 7) / 8 - (0 * 4) / 8) ∧
    ¬ 256 < (E 255).dstAddr.toNat + (0 * 4) / 8 + (((0 + 1) * 4 + 7) / 8 - (0 * 4) / 8) ∧
    (Instr.bframe = .render ∨ Instr.bframe = .extract → GeometryLegal 0 0 0) :=
  ⟨fun d s h => by subst h; exact ⟨rfl, rfl⟩, by decide, by decide, by decide, by decide, by decide, by decide, by decide⟩

/-- BFRAME to its source's last byte, and to the byte after its source. -/
theorem witness_OverlapExactlySharedByte :
    let L := fun d : Word => { frameLatch with dstAddr := d }
    (∃ s : State, s.latch = some (L 1) ∧ s.params.bufBytes = 256) ∧
    (Instr.bframe = .render ∨ Instr.bframe = .extract → GeometryLegal 0 0 0) ∧
    SharesByte (L 1).dstAddr.toNat (2 * (L 1).srcLen.toNat) (L 1).srcAddr.toNat (L 1).srcLen.toNat ∧
    ¬ SharesByte (L 2).dstAddr.toNat (2 * (L 2).srcLen.toNat) (L 2).srcAddr.toNat (L 2).srcLen.toNat :=
  ⟨⟨latched { frameLatch with dstAddr := 1 } [], rfl, rfl⟩, by decide, ⟨1, by decide⟩, by
    rintro ⟨x, ⟨h1, -⟩, -, h2⟩
    have h1' : 2 ≤ x := h1
    have h2' : x < 0 + 2 := h2
    omega⟩

/-- A latched word that is no command, and for each command a latched word that decodes to it. -/
theorem witness_ErrorPriority :
    (∃ (s : State) (L : Latch), s.latch = some L ∧ ∀ i, decode L.cmd ≠ .ok i) ∧
    ∀ i : Instr, (latched (goodLatch i) goodBuf).latch = some (goodLatch i) ∧ decode (goodLatch i).cmd = .ok i :=
  ⟨⟨latched (latchOf 7 Regs.reset) [], _, rfl, by
      have h : (decode (latchOf 7 Regs.reset).cmd).isOk = false := by decide
      intro i hi; rw [hi] at h; cases h⟩,
    fun i => ⟨rfl, by cases i <;> decide⟩⟩

theorem witness_ResultsFitTheirBound :
    ∃ (i : Instr) (s t : State), s.params.Legal ∧ exec i s = .next t ∧ t.regs.status.err = true :=
  ⟨.bframe, latched (latchOf 1 { Regs.reset with srcAddr := 0x101 }) [], _, by decide, rfl, by rfl⟩

theorem witness_NopCompletes :
    (∃ (s : State) (L : Latch), s.latch = some L ∧ s.regs.status.overrun = false) ∧
    (0x20#32).extractLsb' 0 5 = 0#5 ∧ 0x20#32 ≠ 0 :=
  ⟨⟨latched (goodLatch .nop) [], _, rfl, rfl⟩, by decide, by decide⟩

/-- The shared hypotheses of the results of the commands: a latched command whose checks pass, legal parameters, BUF in
canonical form. -/
theorem witness_checks : ∀ i ∈ [Instr.nop, .bframe, .bdeframe, .bdeframeS, .render, .extract, .pframe, .psplit],
    let s := latched (goodLatch i) goodBuf
    s.latch = some (goodLatch i) ∧ s.params.Legal ∧ Memory.wf s.buf ∧
      ChecksPass i (goodLatch i) s.params.bufBytes := by decide

theorem witness_BframeResult :
    ∃ (s : State) (L : Latch) (S D n : Nat), s.latch = some L ∧ s.params.Legal ∧ Memory.wf s.buf ∧ S = L.srcAddr.toNat ∧
      D = L.dstAddr.toNat ∧ n = L.srcLen.toNat ∧ ChecksPass .bframe L s.params.bufBytes ∧ 0 < n :=
  ⟨latched frameLatch goodBuf, frameLatch, _, _, _, rfl, by decide, by decide, rfl, rfl, rfl, by decide, by decide⟩

theorem witness_BdeframeResult :
    ∃ (s : State) (L : Latch) (S D n : Nat), s.latch = some L ∧ s.params.Legal ∧ Memory.wf s.buf ∧ S = L.srcAddr.toNat ∧
      D = L.dstAddr.toNat ∧ n = L.srcLen.toNat / 16 ∧ ChecksPass .bdeframe L s.params.bufBytes ∧ 0 < n :=
  ⟨latched (deframeLatch 2) goodBuf, deframeLatch 2, _, _, _, rfl, by decide, by decide, rfl, rfl, rfl, by decide,
    by decide⟩

/-- A stream with a mismatch in its second byte only, so that each clause about a first mismatch is met. -/
def strictBuf : Memory := cells 0x10 [0x41, 0x02, 0x42, 0x03]

theorem witness_BdeframeStrictResult :
    ∃ (s : State) (L : Latch) (S D D2 n : Nat) (m : Nat → Bool), s.latch = some L ∧ s.params.Legal ∧
      Memory.wf s.buf ∧ S = L.srcAddr.toNat ∧ D = L.dstAddr.toNat ∧ D2 = L.dst2Addr.toNat ∧ n = L.srcLen.toNat / 16 ∧
      (∀ j, m j = decide ((Memory.read s.buf (S + 2 * j + 1)).toNat ≠ popcount (Memory.read s.buf (S + 2 * j)))) ∧
      ChecksPass .bdeframeS L s.params.bufBytes ∧ 1 < n ∧ m 1 = true ∧ m 0 = false :=
  ⟨latched (deframeLatch 0x12) strictBuf, deframeLatch 0x12, _, _, _, _, _, rfl, by decide, by decide, rfl, rfl, rfl, rfl,
    fun _ => rfl, by decide, by decide, by decide, by decide⟩

/-- The chunk of 0x41 with its last bit flipped (L1.3: 41 03). -/
theorem witness_StrictDetectsOneFlip :
    let s := latched (deframeLatch 0x12) (cells 0x10 [0x41, 0x03])
    s.latch = some (deframeLatch 0x12) ∧ s.params.Legal ∧ Memory.wf s.buf ∧
    0 < (deframeLatch 0x12).srcLen.toNat / 16 ∧ ChecksPass .bdeframeS (deframeLatch 0x12) s.params.bufBytes ∧
    ∀ q < 16, bitRead s.buf (deframeLatch 0x12).srcAddr.toNat (16 * 0 + q) =
      ((if q < 8 then (0x41#8).getLsbD (7 - q) else (popcount 0x41#8).testBit (15 - q)) ^^ decide (q = 15)) :=
  ⟨rfl, by decide, by decide, by decide, by decide, by decide⟩

theorem witness_FrameThenDeframe :
    ∀ i ∈ [Instr.bdeframe, .bdeframeS], ∃ (s t u : State) (L K : Latch), s.params.Legal ∧ Memory.wf s.buf ∧
      s.latch = some L ∧ ChecksPass .bframe L s.params.bufBytes ∧ exec .bframe s = .next t ∧ u.params = s.params ∧
      u.buf = t.buf ∧ u.latch = some K ∧ K.srcAddr = L.dstAddr ∧ K.srcLen.toNat = 16 * L.srcLen.toNat ∧
      ChecksPass i K u.params.bufBytes := by
  intro i hi
  refine ⟨latched frameLatch goodBuf, _, { nextOr State.reset (exec .bframe (latched frameLatch goodBuf)) with
    latch := some (deframeLatch 0x12) }, frameLatch, deframeLatch 0x12, by decide, by decide, rfl, by decide, rfl, rfl, rfl,
    rfl, rfl, by decide, ?_⟩
  have h : ∀ i ∈ [Instr.bdeframe, .bdeframeS], ChecksPass i (deframeLatch 0x12) 256 := by decide
  exact h i hi

theorem witness_RenderResult :
    ∃ (s : State) (L : Latch) (S D W H BS Lb i : Nat), s.latch = some L ∧ s.params.Legal ∧ Memory.wf s.buf ∧
      S = L.srcAddr.toNat ∧ D = L.dstAddr.toNat ∧ W = L.frameW.toNat ∧ H = L.frameH.toNat ∧ BS = L.blockSize.toNat ∧
      Lb = L.srcLen.toNat ∧ i = L.frameIndex.toNat ∧ ChecksPass .render L s.params.bufBytes ∧ 3 < W ∧ 3 < H :=
  ⟨latched renderLatch goodBuf, renderLatch, _, _, _, _, _, _, _, rfl, by decide, by decide, rfl, rfl, rfl, rfl, rfl, rfl,
    rfl, by decide, by decide, by decide⟩

theorem witness_ExtractResult :
    ∃ (s : State) (L : Latch) (S D W H BS i bpf : Nat), s.latch = some L ∧ s.params.Legal ∧ Memory.wf s.buf ∧
      S = L.srcAddr.toNat ∧ D = L.dstAddr.toNat ∧ W = L.frameW.toNat ∧ H = L.frameH.toNat ∧ BS = L.blockSize.toNat ∧
      i = L.frameIndex.toNat ∧ bpf = (W / BS) * (H / BS) ∧ ChecksPass .extract L s.params.bufBytes ∧ 1 < H / BS ∧
      1 < W / BS :=
  ⟨latched extractLatch goodBuf, extractLatch, _, _, _, _, _, _, _, rfl, by decide, by decide, rfl, rfl, rfl, rfl, rfl, rfl,
    rfl, by decide, by decide, by decide⟩

/-- All pixels of block (0, 0) 128, or all 127 (42_raster.md R166). -/
theorem witness_ExtractDriftTolerance :
    let L : Latch := { extractLatch with frameW := 2, frameH := 2 }
    ∀ v ∈ [128, 127],
      let s := latched L (cells 0x10 [v, v, v, v])
      s.latch = some L ∧ s.params.Legal ∧ Memory.wf s.buf ∧ 0 < L.frameH.toNat / L.blockSize.toNat ∧
      0 < L.frameW.toNat / L.blockSize.toNat ∧ ChecksPass .extract L s.params.bufBytes ∧
      ∀ dy < 2, ∀ dx < 2, (Memory.read s.buf (L.srcAddr.toNat + (0 * 2 + dy) * 2 + (0 * 2 + dx))).toNat = v := by
  decide

theorem witness_RenderThenExtract :
    ∃ (s t u : State) (L K : Latch) (k bpf : Nat), s.params.Legal ∧ Memory.wf s.buf ∧ s.latch = some L ∧
      ChecksPass .render L s.params.bufBytes ∧ exec .render s = .next t ∧ u.params = s.params ∧ u.buf = t.buf ∧
      u.latch = some K ∧ K.frameW = L.frameW ∧ K.frameH = L.frameH ∧ K.blockSize = L.blockSize ∧
      K.frameIndex = L.frameIndex ∧ K.srcAddr = L.dstAddr ∧ ChecksPass .extract K u.params.bufBytes ∧
      bpf = (L.frameW.toNat / L.blockSize.toNat) * (L.frameH.toNat / L.blockSize.toNat) ∧
      L.frameIndex.toNat * bpf ≤ k ∧ k < (L.frameIndex.toNat + 1) * bpf :=
  ⟨latched renderLatch goodBuf, _, { nextOr State.reset (exec .render (latched renderLatch goodBuf)) with
      latch := some extractLatch }, renderLatch, extractLatch, 3, _, by decide, by decide, rfl, by decide, rfl, rfl, rfl,
    rfl, rfl, rfl, rfl, rfl, rfl, by decide, rfl, by decide, by decide⟩

theorem witness_ExtractKeepsOtherFrames :
    ∃ (s t : State) (L : Latch) (i k bpf : Nat), Memory.wf s.buf ∧ s.latch = some L ∧ exec .extract s = .next t ∧
      bpf = (L.frameW.toNat / L.blockSize.toNat) * (L.frameH.toNat / L.blockSize.toNat) ∧ i ≠ L.frameIndex.toNat ∧
      i * bpf ≤ k ∧ k < (i + 1) * bpf :=
  ⟨latched extractLatch goodBuf, _, extractLatch, 1, 7, _, by decide, rfl, rfl, rfl, by decide, by decide, by decide⟩

theorem witness_PframeResult :
    ∃ (s : State) (L : Latch) (S S2 D m a : Nat), s.latch = some L ∧ s.params.Legal ∧ Memory.wf s.buf ∧
      S = L.srcAddr.toNat ∧ S2 = L.src2Addr.toNat ∧ D = L.dstAddr.toNat ∧ m = L.srcLen.toNat ∧ a = L.src2Len.toNat ∧
      ChecksPass .pframe L s.params.bufBytes ∧ (∀ j < m, Memory.read s.buf (S + j) ≠ 0x0A#8) ∧ 0 < m ∧ 0 < a :=
  ⟨latched pframeLatch goodBuf, pframeLatch, _, _, _, _, _, rfl, by decide, by decide, rfl, rfl, rfl, rfl, rfl, by decide,
    by decide, by decide, by decide⟩

/-- The separator in the last metadata byte. -/
theorem witness_PframeRejectsSentinel :
    ∃ (s : State) (L : Latch), s.latch = some L ∧ ChecksPass .pframe L s.params.bufBytes ∧ 1 < L.srcLen.toNat ∧
      Memory.read s.buf (L.srcAddr.toNat + 1) = 0x0A#8 :=
  ⟨latched pframeLatch (cells 0 [0x7B, 0x0A]), pframeLatch, rfl, by decide, by decide, by decide⟩

/-- The separator in the payload's last byte, and a payload without one. -/
theorem witness_PsplitResult :
    ∃ (s u : State) (L : Latch) (S n : Nat), s.latch = some L ∧ u.latch = some L ∧ s.params.Legal ∧ u.params.Legal ∧
      S = L.srcAddr.toNat ∧ n = L.srcLen.toNat ∧ ChecksPass .psplit L s.params.bufBytes ∧
      ChecksPass .psplit L u.params.bufBytes ∧ 1 < n ∧ Memory.read s.buf (S + 1) = 0x0A#8 ∧
      (∀ j < 1, Memory.read s.buf (S + j) ≠ 0x0A#8) ∧ ∀ k < n, Memory.read u.buf (S + k) ≠ 0x0A#8 :=
  ⟨latched (psplitLatch 2) (cells 0x10 [0x41, 0x0A]), latched (psplitLatch 2) (cells 0x10 [0x41, 0x42]), psplitLatch 2, _, _,
    rfl, rfl, by decide, by decide, rfl, rfl, by decide, by decide, by decide, by decide, by decide, by decide⟩

theorem witness_PayloadRoundTrip :
    ∃ (s t u : State) (L K : Latch), s.params.Legal ∧ Memory.wf s.buf ∧ s.latch = some L ∧
      exec .pframe s = .next t ∧ t.regs.status.err = false ∧ u.params = s.params ∧ u.buf = t.buf ∧ u.latch = some K ∧
      K.srcAddr = L.dstAddr ∧ K.srcLen = t.regs.resultLen :=
  ⟨latched pframeLatch goodBuf, _, { nextOr State.reset (exec .pframe (latched pframeLatch goodBuf)) with
      latch := some (psplitLatch 5) }, pframeLatch, psplitLatch 5, by decide, by decide, rfl, rfl, by rfl, rfl, rfl, rfl, rfl,
    by rfl⟩

theorem witness_StepKeepsBufOk : ∃ s t : State, s.BufOk ∧ step s = .next t :=
  ⟨latched frameLatch goodBuf, _, by decide, rfl⟩

/-- The invariant holds at reset, and with a command latched; both states step. -/
theorem witness_StepKeepsInvariant :
    (State.reset.Inv ∧ ∃ t, step State.reset = .next t) ∧
    (latched frameLatch goodBuf).Inv ∧ ∃ t, step (latched frameLatch goodBuf) = .next t :=
  ⟨⟨by decide, _, rfl⟩, by decide, _, rfl⟩

theorem witness_ResetMeetsInvariant :
    Config.params.Legal ∧ Memory.wf (cells 255 [1]) ∧ Memory.within Config.params.bufBytes (cells 255 [1]) := by decide

/-- A step that records the hazard, and a state that holds one and steps. -/
theorem witness_FaultOnlyByHazardNeverCleared :
    (∃ s t : State, step s = .next t ∧ t.fault ≠ s.fault) ∧
    ∃ (s t : State) (f : HostFault), step s = .next t ∧ s.fault = some f :=
  ⟨⟨busyHost (.lb 0 1), _, rfl, by decide⟩,
    { latched frameLatch [] with fault := some .bufWhileBusy }, _, _, rfl, rfl⟩

/-- The latch after a host's step, after a reset, and after the engine's step. -/
theorem witness_EngineStepStaysEnabled :
    ∀ a ∈ [Agent.host, .engine, .reset],
      let s := { latched frameLatch goodBuf with sched := [a] }
      s.LatchOk ∧ s.latch = some frameLatch ∧ s.mover = a ∧ ∃ t, step s = .next t := by
  intro a ha
  simp only [List.mem_cons, List.not_mem_nil, or_false] at ha
  rcases ha with rfl | rfl | rfl <;> exact ⟨by decide, rfl, rfl, _, rfl⟩

/-- The step that issues a command, and a step while it runs. -/
theorem witness_ResultsHeldWhileBusy :
    (∃ s t : State, step s = .next t ∧ s.regs.status.busy = false ∧ t.regs.status.busy = true) ∧
    ∃ s t : State, step s = .next t ∧ s.regs.status.busy = true ∧ t.regs.status.busy = true :=
  ⟨⟨hosting (.wr 0x1C (.lit 5)), _, rfl, by decide, by decide⟩,
    busyHost (.wr 0x24 (.lit 1)), _, rfl, by decide, by decide⟩

theorem witness_IdleBlockKeepsState : ∃ s : State, s.latch = none ∧ s.sched = [] ∧ s.RunEnded :=
  ⟨State.reset, rfl, rfl, by decide⟩

/-- EXTRACT of frame 1, then of frame 0, to one stream. -/
def frameAt (k : Word) : Latch := { extractLatch with frameIndex := k }
def concatBefore (j : Nat) : State :=
  if j = 0 then latched (frameAt 1) goodBuf
  else { nextOr State.reset (exec .extract (latched (frameAt 1) goodBuf)) with latch := some (frameAt 0) }
def concatAfter (j : Nat) : State := nextOr State.reset (exec .extract (concatBefore j))

theorem witness_ExtractedFramesConcatenate :
    ∃ (T : Nat) (ss ts : Nat → State) (Ls : Nat → Latch) (f : Nat → Nat) (D W H BS bpf : Nat), T = 2 ∧
      bpf = (W / BS) * (H / BS) ∧
      (∀ j < T, (ss j).params.Legal ∧ Memory.wf (ss j).buf ∧ (ss j).latch = some (Ls j) ∧
        D = (Ls j).dstAddr.toNat ∧ W = (Ls j).frameW.toNat ∧ H = (Ls j).frameH.toNat ∧
        BS = (Ls j).blockSize.toNat ∧ f j = (Ls j).frameIndex.toNat ∧ f j < T ∧
        exec .extract (ss j) = .next (ts j) ∧ (ts j).regs.status.err = false) ∧
      (∀ j < T, ∀ j' < T, f j = f j' → j = j') ∧
      (∀ j, j + 1 < T → ∀ k < T * bpf, bitRead (ss (j + 1)).buf D k = bitRead (ts j).buf D k) ∧
      1 < H / BS ∧ 1 < W / BS := by
  refine ⟨2, concatBefore, concatAfter, fun j => if j = 0 then frameAt 1 else frameAt 0, fun j => 1 - j, 0x30, 4, 4, 2, 4, rfl,
    by decide, ?_, by decide, ?_, by decide, by decide⟩
  · intro j hj
    rcases (by omega : j = 0 ∨ j = 1) with rfl | rfl <;>
      exact ⟨by decide, by decide, rfl, by decide, by decide, by decide, by decide, by decide, by decide, rfl, by rfl⟩
  · intro j hj k _
    obtain rfl : j = 0 := by omega
    rfl

end Sys2Proof.Tests
end

section
/-! PROOFS. The state and its registers (10_state.md): what one step can do to STATUS, what a register access does, what
a command's results can be, and the invariant. -/

namespace Sys2Proof.Machine

/-! ## The outcomes of a step -/

/-- Who moved in a step, and which turn it took. -/
theorem step_next {s t : State} (h : step s = .next t) :
    (s.mover = .host ∧ hostTurn s.popped = .next t) ∨ (s.mover = .engine ∧ engineTurn s.popped = .next t) ∨
    (s.mover = .reset ∧ t = resetTurn s.popped) := by
  rw [step_eq] at h
  cases hm : s.mover <;> rw [hm] at h
  case host => exact .inl ⟨rfl, h⟩
  case engine => exact .inr (.inl ⟨rfl, h⟩)
  case reset => injection h with h; exact .inr (.inr ⟨rfl, h.symm⟩)

/-- The turn of a host at a statement is that statement. -/
theorem hostTurn_of_hostAt {s : State} {st : Stmt} (h : s.hostAt st) : hostTurn s = execStmt st s := by
  obtain ⟨hf, hp⟩ := h
  simp [hostTurn, hf, hp]

/-- Everything a turn of the host can do to the block: nothing, one register write, one BUF byte written while BUSY = 0,
or the hazard recorded. -/
theorem hostTurn_cases {s u : State} (h : hostTurn s = .next u) :
    (∃ ha, u = { s with host := ha }) ∨
    (∃ off v, s.hostWritesReg off v ∧ u = advance (writeSlot off v s)) ∨
    (∃ a v, a < s.params.bufBytes ∧ s.regs.status.busy = false ∧
      u = advance { s with buf := Memory.write s.buf a v }) ∨
    (s.regs.status.busy = true ∧ u = recordHazard s ∧ ∃ a, a < s.params.bufBytes ∧ s.hostTouchesBuf a) := by
  obtain ⟨hf, ⟨-, rfl⟩ | ⟨st, hp, h⟩⟩ := hostTurn_next h
  · exact .inl ⟨_, rfl⟩
  have hat : ∀ {st'}, st = st' → s.hostAt st' := fun e => ⟨hf, e ▸ hp⟩
  rcases execStmt_next h with ⟨ha, hu, -⟩ | ⟨off, o, -, -, hst, hu⟩ | ⟨a, o, hlt, hb, -, hu⟩ | ⟨hb, hu, a, hlt, hst⟩
  · exact .inl ⟨ha, hu⟩
  · exact .inr (.inl ⟨off, _, ⟨o, rfl, hst.imp hat hat⟩, hu⟩)
  · exact .inr (.inr (.inl ⟨a, _, hlt, hb, hu⟩))
  · exact .inr (.inr (.inr ⟨hb, hu, a, hlt,
      hst.imp (fun ⟨o, ho⟩ => ⟨o, ho.imp hat hat⟩) fun ⟨x, hx⟩ => ⟨x, hx.imp hat hat⟩⟩))

/-- A host register write leaves the three results alone (10_state.md R46 to R48). -/
theorem writeSlot_results (off : Nat) (w : Word) (s : State) :
    (writeSlot off w s).regs.resultLen = s.regs.resultLen ∧ (writeSlot off w s).regs.resultAux = s.regs.resultAux ∧
    (writeSlot off w s).regs.firstMism = s.regs.firstMism := by
  rcases writeSlot_cases off w s with ⟨-, -, hw⟩ | ⟨-, -, hw⟩ | ⟨-, hw⟩ | ⟨-, -, -, -, -, hres⟩
  · simp [hw]
  · simp [hw]
  · simp [hw]
  · exact hres

/-- A turn of the host leaves the three results alone. -/
theorem hostTurn_results {s u : State} (h : hostTurn s = .next u) :
    u.regs.resultLen = s.regs.resultLen ∧ u.regs.resultAux = s.regs.resultAux ∧
    u.regs.firstMism = s.regs.firstMism := by
  rcases hostTurn_cases h with ⟨ha, rfl⟩ | ⟨off, v, -, rfl⟩ | ⟨a, v, -, -, rfl⟩ | ⟨-, rfl, -⟩
  · exact ⟨rfl, rfl, rfl⟩
  · exact writeSlot_results off v s
  · exact ⟨rfl, rfl, rfl⟩
  · exact ⟨rfl, rfl, rfl⟩

/-! ## What a successful command answers -/

/-- BDEFRAME.S counts at most its bytes (41_bitframing.md R146). -/
theorem mismatches_count_le (m : Memory) (S n : Nat) : (mismatches m S n).count true ≤ n := by
  have h := List.count_le_length (a := true) (l := mismatches m S n)
  simpa [mismatches] using h

/-- What a successful PFRAME answers (43_payload.md R180). -/
theorem bodyPframe_ok {L : Latch} {m : Memory} {r : CmdResult} (h : bodyPframe L m = .ok r) :
    r.len = L.srcLen.toNat + 1 + L.src2Len.toNat ∧ r.aux = 0 ∧ r.mism = false := by
  simp only [bodyPframe] at h
  split at h <;> cases h
  exact ⟨rfl, rfl, rfl⟩

/-- What a successful PSPLIT answers (43_payload.md R184): the separator lies in the source. -/
theorem bodyPsplit_ok {L : Latch} {m : Memory} {r : CmdResult} (h : bodyPsplit L m = .ok r) :
    r.len < L.srcLen.toNat ∧ r.aux = L.srcLen.toNat - r.len - 1 ∧ r.mism = false := by
  simp only [bodyPsplit] at h
  split at h <;> cases h
  rename_i k hk
  exact ⟨List.mem_range.1 (List.mem_of_find?_eq_some hk), rfl, rfl⟩

/-- Only BDEFRAME.S reports a mismatch, and then it counted at least one, a count that fits RESULT_AUX (41_bitframing.md
R146, 10_state.md R36, R47). -/
theorem bodyOf_mism {i : Instr} {L : Latch} {m : Memory} {r : CmdResult} (h : bodyOf i L m = .ok r)
    (hm : r.mism = true) : i = .bdeframeS ∧ 0 < r.aux ∧ r.aux < 2 ^ 32 := by
  cases i
  case bdeframeS =>
    cases h
    have hcount := mismatches_count_le m L.srcAddr.toNat (L.srcLen.toNat / 16)
    have hlen := L.srcLen.isLt
    exact ⟨rfl, of_decide_eq_true hm, by simp only; omega⟩
  case pframe => obtain ⟨-, -, hno⟩ := bodyPframe_ok h; simp [hno] at hm
  case psplit => obtain ⟨-, -, hno⟩ := bodyPsplit_ok h; simp [hno] at hm
  all_goals cases h; cases hm

/-- The results of a command whose ranges are in BUF are at most the bits of BUF (10_state.md R46, R47, 20_memory.md
R61). -/
theorem bodyOf_results_le {i : Instr} {L : Latch} {m : Memory} {r : CmdResult} {n : Nat} (h : bodyOf i L m = .ok r)
    (hin : (operandRanges i L).allInBuf n = true) : r.len ≤ 8 * n ∧ r.aux ≤ 8 * n := by
  rw [allInBuf_iff] at hin
  cases i <;> simp only [OperandRanges.inOrder, operandRanges, Option.toList_some, Option.toList_none, List.append_nil,
    List.cons_append, List.nil_append, List.mem_cons, List.not_mem_nil, or_false, forall_eq_or_imp, forall_eq] at hin
  case pframe =>
    obtain ⟨hlen, haux, -⟩ := bodyPframe_ok h
    omega
  case psplit =>
    obtain ⟨hlt, haux, -⟩ := bodyPsplit_ok h
    omega
  case bdeframeS =>
    cases h
    have hcount := mismatches_count_le m L.srcAddr.toNat (L.srcLen.toNat / 16)
    simp only; omega
  case extract =>
    cases h
    simp only [Latch.extractStart, Latch.extractLen, ceilDiv] at hin
    simp only; omega
  all_goals cases h; simp only; omega

/-- A completion's MISM says that RESULT_AUX is not 0. -/
theorem complete_resultAux_ne_zero {i : Instr} {L : Latch} {m : Memory} {r : CmdResult} (s : State)
    (h : bodyOf i L m = .ok r) (hm : r.mism = true) : (complete r s).regs.resultAux ≠ 0 := by
  obtain ⟨-, hpos, hlt⟩ := bodyOf_mism h hm
  intro h0
  have := congrArg BitVec.toNat h0
  simp at this
  omega

/-! ## The invariant -/

/-- The invariant speaks of the parameters, BUF, the latch, CMD, the results and the flags other than OVERRUN. -/
theorem inv_of_agree {s t : State} (h : s.Inv) (hp : t.params = s.params) (hb : t.buf = s.buf)
    (hl : t.latch = s.latch) (hc : t.regs.cmd = s.regs.cmd)
    (hst : t.regs.status = { s.regs.status with overrun := t.regs.status.overrun })
    (hres : t.regs.resultLen = s.regs.resultLen ∧ t.regs.resultAux = s.regs.resultAux ∧
      t.regs.firstMism = s.regs.firstMism) : t.Inv := by
  obtain ⟨hlen, haux, hfirst⟩ := hres
  unfold State.Inv State.BufOk State.LatchOk State.FlagsOk
  rw [hst, hp, hb, hl, hc, hlen, haux, hfirst]
  exact h

/-- An accepted CMD write keeps the invariant: the latch, CMD and BUSY change together and no result is shown. -/
theorem acceptCmd_inv {s : State} (h : s.Inv) (w : Word) : (acceptCmd w s).Inv := by
  obtain ⟨hp, hb, -, -⟩ := h
  exact ⟨hp, hb, by simp [State.LatchOk, latchOf], by simp [State.FlagsOk]⟩

/-- Every host register write keeps the invariant. -/
theorem writeSlot_inv {s : State} (h : s.Inv) (off : Nat) (w : Word) : (writeSlot off w s).Inv := by
  obtain ⟨hp, hb, -⟩ := writeSlot_frame off w s
  have hres := writeSlot_results off w s
  rcases writeSlot_cases off w s with ⟨-, -, hw⟩ | ⟨-, -, hw⟩ | ⟨-, hw⟩ | ⟨-, -, hl, hst, hc, -⟩
  · rw [hw]; exact acceptCmd_inv h w
  · exact inv_of_agree h hp hb (by rw [hw]) (by rw [hw]) (by rw [hw]; rfl) hres
  · exact inv_of_agree h hp hb (by rw [hw]) (by rw [hw]) (by rw [hw]; rfl) hres
  · exact inv_of_agree h hp hb hl hc (by rw [hst]) hres

/-- A turn of the host keeps the invariant. -/
theorem hostTurn_inv {s u : State} (h : s.Inv) (hu : hostTurn s = .next u) : u.Inv := by
  rcases hostTurn_cases hu with ⟨ha, rfl⟩ | ⟨off, v, -, rfl⟩ | ⟨a, v, hlt, -, rfl⟩ | ⟨-, rfl, -⟩
  · exact h
  · exact writeSlot_inv h off v
  · obtain ⟨hp, ⟨hwf, hin⟩, hrest⟩ := h
    exact ⟨hp, ⟨Memory.wf_write hwf a v, Memory.within_write hin hlt v⟩, hrest⟩
  · exact h

/-- A successful command keeps the invariant: it writes its destination ranges, which its checks found in BUF. -/
theorem complete_inv {s : State} (h : s.Inv) {i : Instr} {L : Latch} {r : CmdResult}
    (hc : ChecksPass i L s.params.bufBytes) (hb : bodyOf i L s.buf = .ok r) : (complete r s).Inv := by
  obtain ⟨hp, ⟨hwf, hin⟩, -, -⟩ := h
  obtain ⟨-, hall, -⟩ := hc
  have hrange := (allInBuf_iff _ _).1 hall
  have hwrites : ∀ c ∈ r.writes, c.1 < s.params.bufBytes := by
    intro c hcw
    obtain ⟨d, hd, -, hlt⟩ := bodyOf_writes hb c hcw
    exact lt_of_lt_of_le hlt (hrange d (dests_sub_inOrder hd))
  refine ⟨hp, ⟨Memory.wf_writeAll hwf _, Memory.within_writeAll hin hwrites⟩, by simp [State.LatchOk], ?_⟩
  exact ⟨by simp, by simp, by simp, fun hm => ⟨rfl, complete_resultAux_ne_zero s hb hm⟩⟩

/-- A failed command keeps the invariant. -/
theorem failWith_inv {s : State} (h : s.Inv) {c : ErrCode} (hc : c ≠ .none) : (failWith c s).Inv := by
  obtain ⟨hp, hb, -, -⟩ := h
  exact ⟨hp, hb, by simp [State.LatchOk], by simp [State.FlagsOk, hc, noMism]⟩

/-- A turn of the engine keeps the invariant. -/
theorem engineTurn_inv {s u : State} (h : s.Inv) (hu : engineTurn s = .next u) : u.Inv := by
  rcases engineTurn_next hu with ⟨-, rfl⟩ | ⟨L, -, ⟨i, r, -, hc, hb, rfl⟩ | ⟨c, hc, rfl⟩⟩
  · exact h
  · exact complete_inv h hc hb
  · exact failWith_inv h hc

/-- A reset keeps the invariant: it draws bytes of BUF only. -/
theorem resetTurn_inv {s : State} (h : s.Inv) : (resetTurn s).Inv := by
  obtain ⟨hp, ⟨hwf, hin⟩, -, -⟩ := h
  have hdrawn : ∀ c ∈ drawBytes (resetAddrs s) s.draws, c.1 < s.params.bufBytes := by
    intro c hc
    obtain ⟨k, hk, -⟩ := mem_drawBytes.1 hc
    have hmem := List.mem_of_getElem? hk
    unfold resetAddrs at hmem
    split at hmem
    · cases hmem
    · exact (mem_cutShortAddrs.1 hmem).1
  refine ⟨hp, ?_, by simp [State.LatchOk, Regs.reset], by simp [State.FlagsOk, Regs.reset]⟩
  rw [State.BufOk, resetTurn_buf, resetTurn_params]
  exact ⟨Memory.wf_writeAll hwf _, Memory.within_writeAll hin hdrawn⟩

/-- Settles O48: whichever agent moves, its turn keeps the invariant. -/
theorem stepKeepsInvariant : Obligations.StepKeepsInvariant := by
  intro s t hs h
  have hs' : s.popped.Inv := hs
  rcases step_next h with ⟨-, h⟩ | ⟨-, h⟩ | ⟨-, rfl⟩
  · exact hostTurn_inv hs' h
  · exact engineTurn_inv hs' h
  · exact resetTurn_inv hs'

/-! ## STATUS over one step -/

/-- Everything a turn of the host can do to STATUS. -/
theorem hostTurn_status {s u : State} (h : hostTurn s = .next u) :
    u.regs.status = s.regs.status ∨
    (∃ v, s.hostWritesReg 0x1C v ∧ s.regs.status.busy = false ∧ u.regs.status = s.regs.status.issued) ∨
    (∃ v, s.hostWritesReg 0x1C v ∧ s.regs.status.busy = true ∧ u.regs.status = s.regs.status.overran) ∨
    (∃ v, s.hostWritesReg 0x20 v ∧ u.regs.status = s.regs.status.hostWrite v) := by
  rcases hostTurn_cases h with ⟨ha, rfl⟩ | ⟨off, v, hv, rfl⟩ | ⟨a, v, -, -, rfl⟩ | ⟨-, rfl, -⟩
  · exact .inl rfl
  · rcases writeSlot_cases off v s with ⟨rfl, hb, hw⟩ | ⟨rfl, hb, hw⟩ | ⟨rfl, hw⟩ | ⟨-, -, -, hst, -⟩
    · exact .inr (.inl ⟨v, hv, hb, by simp [hw]⟩)
    · exact .inr (.inr (.inl ⟨v, hv, hb, by simp [hw]⟩))
    · exact .inr (.inr (.inr ⟨v, hv, by simp [hw]⟩))
    · exact .inl (by simp [hst])
  · exact .inl rfl
  · exact .inl rfl

/-- Everything a turn of the engine can do to STATUS (40_command_lifecycle.md R117, R118). -/
theorem engineTurn_status {s u : State} (h : engineTurn s = .next u) :
    u.regs.status = s.regs.status ∨
    ∃ L, s.latch = some L ∧
      ((∃ m, u.regs.status = s.regs.status.completed m ∧ (m = true → decode L.cmd = .ok .bdeframeS)) ∨
       (∃ c, c ≠ .none ∧ u.regs.status = s.regs.status.failed c)) := by
  rcases engineTurn_next h with ⟨-, rfl⟩ | ⟨L, hL, ⟨i, r, hi, -, hb, rfl⟩ | ⟨c, hc, rfl⟩⟩
  · exact .inl rfl
  · refine .inr ⟨L, hL, .inl ⟨r.mism, rfl, fun hm => ?_⟩⟩
    obtain ⟨rfl, -⟩ := bodyOf_mism hb hm
    exact hi
  · exact .inr ⟨L, hL, .inr ⟨c, hc, rfl⟩⟩

/-- Settles O16: the three events of OVERRUN are among the things a turn can do to STATUS. -/
theorem overrunChangesOnlyByItsEvents : Obligations.OverrunChangesOnlyByItsEvents := by
  refine ⟨fun s t h => ?_, fun s w hb => writeCmd_busy hb w, fun _ _ => rfl, fun _ => rfl⟩
  by_cases hkept : t.regs.status.overrun = s.regs.status.overrun
  · exact ⟨fun h0 h1 => by simp [hkept, h0] at h1, fun h1 h0 => by simp [hkept, h1] at h0⟩
  rcases step_next h with ⟨hm, h⟩ | ⟨hm, h⟩ | ⟨hm, rfl⟩
  · rcases hostTurn_status h with hst | ⟨v, -, -, hst⟩ | ⟨v, hv, hb, hst⟩ | ⟨v, hv, hst⟩
    · exact absurd (by rw [hst]; rfl) hkept
    · exact absurd (by rw [hst]; rfl) hkept
    · exact ⟨fun _ _ => ⟨hm, hb, v, hv⟩, fun _ h0 => by simp [hst] at h0⟩
    · refine ⟨fun h0 h1 => by simp [hst, h0] at h1, fun h1 h0 => .inr ⟨hm, v, hv, ?_⟩⟩
      simpa [hst, h1] using h0
  · rcases engineTurn_status h with hst | ⟨L, -, ⟨m, hst, -⟩ | ⟨c, -, hst⟩⟩ <;>
      exact absurd (by rw [hst]; rfl) hkept
  · exact ⟨fun _ h1 => (by cases h1), fun _ _ => .inl hm⟩

/-- STATUS reads 0 after a reset (70_reset_and_hazards.md R230). -/
theorem reset_status_toWord : Regs.reset.status.toWord = 0 := by decide

/-- A latched command ends as its checks and its body say. -/
theorem exec_latched {i : Instr} {s : State} {L : Latch} (hL : s.latch = some L) :
    exec i s = .next (settle (execResult i (bodyOf i) L s.params.bufBytes s.buf) s) := by
  rw [exec_eq_perform, perform_latched hL]

/-- The end of a command does not depend on STATUS, of which it keeps OVERRUN only (10_state.md R37, R53). -/
theorem settle_ignores_status (r : Except ErrCode CmdResult) (s : State) (st : Status) :
    settle r { s with regs := { s.regs with status := st } } =
      { settle r s with
        regs := { (settle r s).regs with
          status := { (settle r s).regs.status with overrun := st.overrun } } } := by
  cases r <;> rfl

/-- Settles O17: a flag other than OVERRUN changes only by issue, by the engine's end of a command, or by reset. -/
theorem flagsChangeOnlyByTheirEvents : Obligations.FlagsChangeOnlyByTheirEvents := by
  refine ⟨fun s t h hne => ?_, fun i s t st h => ?_⟩
  · rcases step_next h with ⟨hm, h⟩ | ⟨hm, h⟩ | ⟨hm, rfl⟩
    · rcases hostTurn_status h with hst | ⟨v, hv, hb, hst⟩ | ⟨v, -, -, hst⟩ | ⟨v, -, hst⟩
      · exact absurd (by rw [hst]; rfl) hne
      · exact .inl ⟨hm, hb, ⟨v, hv⟩, hst⟩
      · exact absurd (by rw [hst]; rfl) hne
      · exact absurd (by rw [hst]; rfl) hne
    · refine .inr (.inl ⟨hm, ?_⟩)
      rcases engineTurn_status h with hst | ⟨L, hL, ⟨m, hst, hmism⟩ | ⟨c, hc, hst⟩⟩
      · exact absurd (by rw [hst]; rfl) hne
      · exact ⟨L, hL, by simp [hst], by simp [hst], by simp [hst], by simpa [hst] using hmism⟩
      · exact ⟨L, hL, by simp [hst], by simp [hst], by simp [hst, hc], by simp [hst]⟩
    · exact .inr (.inr ⟨hm, reset_status_toWord⟩)
  · obtain ⟨L, hL, -⟩ := exec_next h
    rw [exec_latched hL] at h
    injection h with h
    refine ⟨_, exec_latched hL, ?_⟩
    rw [settle_ignores_status, h]
    exact ⟨rfl, rfl, rfl, rfl, rfl⟩

/-- Settles O31: a completion leaves results within the bits of BUF, a failure leaves 0. -/
theorem resultsFitTheirBound : Obligations.ResultsFitTheirBound := by
  intro i s t _ h
  obtain ⟨L, -, ⟨r, ⟨-, hin, -⟩, hb, rfl⟩ | ⟨c, -, rfl⟩⟩ := exec_next h
  · obtain ⟨hlen, haux⟩ := bodyOf_results_le hb hin
    refine ⟨?_, ?_, by simp⟩
    · exact (Nat.mod_le r.len (2 ^ 32)).trans hlen
    · exact (Nat.mod_le r.aux (2 ^ 32)).trans haux
  · exact ⟨Nat.zero_le _, Nat.zero_le _, fun _ => ⟨rfl, rfl⟩⟩

/-! ## Register reads and writes -/

/-- Settles O9: the host writes none of the three, and an engine without a command passes. -/
theorem resultRegistersReadOnly : Obligations.ResultRegistersReadOnly := by
  refine ⟨fun s w => ⟨rfl, rfl, rfl, rfl, rfl, rfl⟩, fun s t h hmover => ?_⟩
  rcases step_next h with ⟨-, h⟩ | ⟨hm, h⟩ | ⟨hm, -⟩
  · exact hostTurn_results (s := s.popped) h
  · obtain ⟨-, hL⟩ : s.mover = .engine ∧ s.latch = none := hmover.resolve_left (by simp [hm])
    rcases engineTurn_next h with ⟨-, rfl⟩ | ⟨L, hL', -⟩
    · exact ⟨rfl, rfl, rfl⟩
    · exact absurd (hL.symm.trans hL') (by simp)
  · simp [hm] at hmover

/-- GeometryLegal of 40_command_lifecycle.md R119 as a proposition. -/
theorem geometryLegal_iff (W H BS : Nat) : geometryLegal W H BS = true ↔ GeometryLegal W H BS := by
  simp [geometryLegal, GeometryLegal, and_assoc]

/-- The block count of 16-bit dimensions fits a 32-bit word (10_state.md R30). -/
theorem bitsPerFrame_lt (w h : Half) (bs : Nat) : bitsPerFrame w.toNat h.toNat bs < 2 ^ 32 :=
  calc w.toNat / bs * (h.toNat / bs)
      ≤ w.toNat * h.toNat := Nat.mul_le_mul (Nat.div_le_self _ _) (Nat.div_le_self _ _)
    _ < 2 ^ 16 * 2 ^ 16 := Nat.mul_lt_mul'' w.isLt h.isLt

/-- Settles O10: the read is the block count, which no narrowing to 32 bits changes. -/
theorem bpfReadsCurrentGeometry : Obligations.BpfReadsCurrentGeometry := by
  rintro s w W H BS rfl rfl rfl
  have hread : readSlot 0x18 s = BitVec.ofNat 32 (bpfOf s.regs) := rfl
  refine ⟨fun hlegal => ?_, fun hillegal => ?_, rfl⟩
  · rw [hread, bpfOf, if_pos ((geometryLegal_iff ..).2 hlegal), BitVec.toNat_ofNat,
      Nat.mod_eq_of_lt (bitsPerFrame_lt ..)]
    rfl
  · rw [hread, bpfOf, if_neg fun hl => hillegal ((geometryLegal_iff ..).1 hl)]

/-- A geometry register widened to 32 bits holds the low 16 bits of what was written (10_state.md R26 to R28, R49). -/
theorem setWidth_half (w : Word) : (w.setWidth 16).setWidth 32 = w &&& 0x0000FFFF#32 := by
  apply BitVec.eq_of_toNat_eq
  have := Nat.and_two_pow_sub_one_eq_mod w.toNat 16
  simp at this ⊢
  omega

/-- No register but BPF reads differently after a write of another register that is not CMD or STATUS (10_state.md
R23). -/
theorem readReg_writeReg_other {n k : RegName} (hcmd : n ≠ .cmd) (hstatus : n ≠ .status) (hk : k ≠ n) (hbpf : k ≠ .bpf)
    (w : Word) (s : State) : readReg k (writeReg n w s) = readReg k s := by
  cases n
  case cmd => exact absurd rfl hcmd
  case status => exact absurd rfl hstatus
  all_goals cases k <;> trivial

/-- The same, slot by slot: reserved space reads 0 before and after, and ignores the write (10_state.md R49). -/
theorem readSlot_writeSlot_other {off off' : Nat} (hcmd : off ≠ 0x1C) (hstatus : off ≠ 0x20) (hne : off' ≠ off)
    (hbpf : off' ≠ 0x18) (w : Word) (s : State) : readSlot off' (writeSlot off w s) = readSlot off' s := by
  rcases regAt_cases off with ⟨n, hn, rfl⟩ | ⟨hn, -⟩
  · rcases regAt_cases off' with ⟨k, hk, rfl⟩ | ⟨hk, -⟩
    · have hread := readReg_writeReg_other (n := n) (k := k) (by rintro rfl; exact hcmd rfl)
        (by rintro rfl; exact hstatus rfl) (by rintro rfl; exact hne rfl) (by rintro rfl; exact hbpf rfl) w s
      simpa [readSlot, writeSlot, hn, hk] using hread
    · simp [readSlot, hk]
  · simp [writeSlot, hn]

/-- Settles O11: the slot written reads back, and the frame of a slot write is `readSlot_writeSlot_other`. -/
theorem writableRegistersReadBack : Obligations.WritableRegistersReadBack := by
  refine ⟨fun s => ⟨rfl, rfl, rfl, rfl, rfl, rfl, rfl, rfl, rfl, rfl⟩, fun s off w hoff => ?_⟩
  have hcmd : off ≠ 0x1C := by rintro rfl; simp at hoff
  have hstatus : off ≠ 0x20 := by rintro rfl; simp at hoff
  obtain ⟨-, hbuf, hfault, -⟩ := writeSlot_frame off w s
  have hlatch : (writeSlot off w s).latch = s.latch := by
    rcases writeSlot_cases off w s with ⟨h, -⟩ | ⟨h, -⟩ | ⟨h, -⟩ | ⟨-, -, hl, -⟩
    · exact absurd h hcmd
    · exact absurd h hcmd
    · exact absurd h hstatus
    · exact hl
  refine ⟨?_, fun off' hne hbpf => readSlot_writeSlot_other hcmd hstatus hne hbpf w s, hlatch, hbuf, hfault⟩
  simp only [List.mem_cons, List.not_mem_nil, or_false] at hoff
  rcases hoff with rfl | rfl | rfl | rfl | rfl | rfl | rfl | rfl | rfl | rfl
  iterate 3 exact setWidth_half w
  all_goals rfl

/-- The register map ends at FIRST_MISM (10_state.md R23). -/
theorem regOffset_le (n : RegName) : regOffset n ≤ 0x48 := by cases n <;> decide

/-- Offsets past the register map are reserved (10_state.md R49). -/
theorem regAt_reserved {off : Nat} (h : 0x48 < off) : regAt off = none := by
  rcases regAt_cases off with ⟨n, -, rfl⟩ | ⟨hn, -⟩
  · exact absurd (regOffset_le n) (by omega)
  · exact hn

/-- The flags of the STATUS word (10_state.md R32). -/
theorem toWord_flags (st : Status) :
    st.toWord.getLsbD 0 = st.busy ∧ st.toWord.getLsbD 1 = st.done ∧ st.toWord.getLsbD 2 = st.err ∧
    st.toWord.getLsbD 3 = st.mism ∧ st.toWord.getLsbD 4 = st.overrun := by
  simp [Status.toWord]

/-- Past the flags the STATUS word holds ERRCODE from bit 8 on, and zeros (10_state.md R32). -/
theorem toWord_getLsbD_of_ge (st : Status) {n : Nat} (hn : 5 ≤ n) :
    st.toWord.getLsbD n = (!decide (n < 8) && st.errCode.code.getLsbD (n - 8)) := by
  have hflag : ∀ k, 1 ≤ k → ∀ b : Bool, ((BitVec.ofBool b).setWidth 32).getLsbD k = false := fun k hk b => by
    rw [BitVec.getLsbD_setWidth, BitVec.getLsbD_of_ge _ _ hk, Bool.and_false]
  simp (disch := omega) only [Status.toWord, BitVec.getLsbD_or, BitVec.getLsbD_shiftLeft, hflag, Bool.and_false,
    Bool.or_false]
  by_cases h : n < 32
  · simp [h, show n - 8 < 32 by omega]
  · simp [h, BitVec.getLsbD_of_ge st.errCode.code (n - 8) (by omega)]

/-- ERRCODE stands in bits 11 to 8 of the STATUS word (10_state.md R32). -/
theorem toWord_errCode (st : Status) : st.toWord.extractLsb' 8 4 = st.errCode.code := by
  apply BitVec.eq_of_getLsbD_eq
  intro k hk
  rw [BitVec.getLsbD_extractLsb', toWord_getLsbD_of_ge st (by omega)]
  simp [hk]

/-- The reserved bits of STATUS read 0 (10_state.md R32, R49). -/
theorem toWord_reserved (st : Status) {n : Nat} (hn : (5 ≤ n ∧ n ≤ 7) ∨ 12 ≤ n) : st.toWord.getLsbD n = false := by
  rw [toWord_getLsbD_of_ge st (by omega)]
  rcases hn with ⟨-, h⟩ | h
  · simp [show n < 8 by omega]
  · simp [BitVec.getLsbD_of_ge st.errCode.code (n - 8) (by omega)]

/-- Settles O12: reserved offsets name no register, and reserved bits lie above the field that is widened. -/
theorem reservedSpaceReadsZero : Obligations.ReservedSpaceReadsZero := by
  intro s w
  refine ⟨fun off h _ => ?_, fun n hn => ?_, fun n hn => ?_, fun n hn => toWord_reserved _ hn, setWidth_half w,
    setWidth_half w, setWidth_half w⟩
  · have hnone : regAt off = none := regAt_reserved (by omega)
    simp [readSlot, writeSlot, hnone]
  · have hhalf : ∀ v : Half, (v.setWidth 32).getLsbD n = false := fun v => by
      simp [BitVec.getLsbD_setWidth, BitVec.getLsbD_of_ge v n hn]
    exact ⟨hhalf _, hhalf _, hhalf _⟩
  · exact BitVec.getLsbD_of_ge ((8#32).setWidth 8) n hn

/-- Settles O13: the flags by `toWord_flags`, ERRCODE by `toWord_errCode` and the table of codes. -/
theorem statusWordLayout : Obligations.StatusWordLayout := by
  intro s
  obtain ⟨hbusy, hdone, herr, hmism, hoverrun⟩ := toWord_flags s.regs.status
  refine ⟨hbusy, hdone, herr, hmism, hoverrun, ?_⟩
  have hread : readSlot 0x20 s = s.regs.status.toWord := rfl
  rw [hread, toWord_errCode]
  cases s.regs.status.errCode <;> rfl

/-- Settles O8: BUFSZ holds BUF_BYTES unnarrowed, since a legal BUF_BYTES is at most 2^28. -/
theorem hardwiredRegisters : Obligations.HardwiredRegisters := by
  intro s w ⟨_, hle, _⟩
  have hbufsz : readSlot 0x04 s = BitVec.ofNat 32 s.params.bufBytes := rfl
  refine ⟨rfl, ?_, rfl, rfl, rfl, rfl⟩
  rw [hbufsz, BitVec.toNat_ofNat, Nat.mod_eq_of_lt (by omega)]

/-- Settles O14: the two branches of a CMD write. -/
theorem cmdWriteIssuesOrOverruns : Obligations.CmdWriteIssuesOrOverruns := by
  refine ⟨fun _ _ => rfl, fun s w => ⟨fun hb => writeCmd_busy hb w, fun hb => ?_⟩⟩
  have hw : writeSlot 0x1C w s = acceptCmd w s := writeCmd_idle hb w
  rw [hw]
  exact ⟨rfl, rfl⟩

/-! ## Register statements of the host -/

/-- A host variable reads what was last assigned to it. -/
theorem hostVar_setVar_same (x : Nat) (v : Word) (h : HostAgent) : hostVar (setVar x v h) x = v := by
  simp [hostVar, setVar]

/-- An assignment leaves the other host variables alone. -/
theorem hostVar_setVar_other {x y : Nat} (hy : y ≠ x) (v : Word) (h : HostAgent) :
    hostVar (setVar x v h) y = hostVar h y := by
  have hold : ∀ p : Nat × Word, decide ((p.1 != x) = true ∧ (p.1 == y) = true) = (p.1 == y) := fun p => by
    by_cases hp : p.1 = y <;> simp [hp, hy]
  unfold hostVar setVar
  rw [List.find?_cons_of_neg (by simpa using Ne.symm hy), List.find?_filter]
  simp only [hold]

/-- A 32-bit host write at an aligned offset of the register window is the slot write. -/
theorem hostWrite_reg {off : Nat} (hlt : off < 256) (h4 : off % 4 = 0) (v : Word) (s : State) :
    hostWrite .w32 (s.params.regBase + off) v s = .next (advance (writeSlot off v s)) := by
  simp [hostWrite, busWrite, route_reg hlt h4]

/-- A 32-bit host read at an aligned offset of the register window assigns the slot's value. -/
theorem hostRead_reg {off : Nat} (hlt : off < 256) (h4 : off % 4 = 0) (x : Nat) (s : State) :
    hostRead .w32 (s.params.regBase + off) x s =
      .next (advance { s with host := setVar x (readSlot off s) s.host }) := by
  simp [hostRead, busRead, route_reg hlt h4]

/-- Settles O18: the two register statements reach their slot. -/
theorem hostRegisterAccess : Obligations.HostRegisterAccess := by
  intro s off hlt h4
  refine ⟨fun o hat => ?_, fun x hat => ⟨advance { s with host := setVar x (readSlot off s) s.host }, ?_,
    hostVar_setVar_same x _ s.host, fun y hy => hostVar_setVar_other hy _ s.host, rfl, rfl, rfl⟩⟩
  · obtain ⟨-, -, -, hhost, -⟩ := writeSlot_frame off (operandValue o s.host) s
    rw [hostTurn_of_hostAt hat, execStmt, hostWrite_reg hlt h4, advance, hhost]
  · rw [hostTurn_of_hostAt hat, execStmt, hostRead_reg hlt h4]

end Sys2Proof.Machine
end

section
/-! PROOFS. The host's memory (20_memory.md): the canonical form of BUF over a step, which accesses of the host have a
meaning, what the byte accesses do, and what reads and register writes leave alone. -/

namespace Sys2Proof.Machine

/-! ## BUF stays well formed (R60) -/

/-- `BufOk` speaks of the parameters and BUF only. -/
theorem bufOk_of_agree {s t : State} (h : s.BufOk) (hp : t.params = s.params) (hb : t.buf = s.buf) : t.BufOk := by
  rwa [State.BufOk, hp, hb]

/-- Writes of BUF bytes keep `BufOk`. -/
theorem bufOk_of_writeAll {s t : State} {ws : List Host.Cell} (h : s.BufOk) (hp : t.params = s.params)
    (hb : t.buf = Memory.writeAll s.buf ws) (hws : ∀ c ∈ ws, c.1 < s.params.bufBytes) : t.BufOk := by
  obtain ⟨hwf, hin⟩ := h
  rw [State.BufOk, hp, hb]
  exact ⟨Memory.wf_writeAll hwf ws, Memory.within_writeAll hin hws⟩

/-- A command that passed the range check writes BUF bytes only (40_command_lifecycle.md R116, R120). -/
theorem bodyOf_writes_lt {i : Instr} {L : Latch} {m : Memory} {r : CmdResult} {n : Nat} (hc : ChecksPass i L n)
    (hb : bodyOf i L m = .ok r) : ∀ c ∈ r.writes, c.1 < n := by
  obtain ⟨-, hall, -⟩ := hc
  intro c hcw
  obtain ⟨d, hd, -, hlt⟩ := bodyOf_writes hb c hcw
  exact lt_of_lt_of_le hlt ((allInBuf_iff _ _).1 hall d (dests_sub_inOrder hd))

/-- A reset draws values for BUF bytes only (70_reset_and_hazards.md R231). -/
theorem mem_resetAddrs_lt {s : State} {a : Nat} (h : a ∈ resetAddrs s) : a < s.params.bufBytes := by
  unfold resetAddrs at h
  split at h
  · cases h
  · exact (mem_cutShortAddrs.1 h).1

/-- A turn of the host keeps BUF well formed: it writes at most one byte, which lies in BUF. -/
theorem hostTurn_bufOk {s u : State} (h : s.BufOk) (hu : hostTurn s = .next u) : u.BufOk := by
  rcases hostTurn_cases hu with ⟨ha, rfl⟩ | ⟨off, v, -, rfl⟩ | ⟨a, v, hlt, -, rfl⟩ | ⟨-, rfl, -⟩
  · exact h
  · obtain ⟨hp, hb, -⟩ := writeSlot_frame off v s
    exact bufOk_of_agree h hp hb
  · exact bufOk_of_writeAll (ws := [(a, v)]) h rfl rfl (by simpa using hlt)
  · exact h

/-- A turn of the engine keeps BUF well formed. -/
theorem engineTurn_bufOk {s u : State} (h : s.BufOk) (hu : engineTurn s = .next u) : u.BufOk := by
  rcases engineTurn_next hu with ⟨-, rfl⟩ | ⟨L, -, ⟨i, r, -, hc, hb, rfl⟩ | ⟨c, -, rfl⟩⟩
  · exact h
  · exact bufOk_of_writeAll h rfl rfl (bodyOf_writes_lt hc hb)
  · exact h

/-- A reset keeps BUF well formed. -/
theorem resetTurn_bufOk {s : State} (h : s.BufOk) : (resetTurn s).BufOk := by
  refine bufOk_of_writeAll h (resetTurn_params s) (resetTurn_buf s) fun c hc => ?_
  obtain ⟨k, hk, -⟩ := mem_drawBytes.1 hc
  exact mem_resetAddrs_lt (List.mem_of_getElem? hk)

/-- Settles O47: whichever agent moves, every byte its turn writes lies in BUF. -/
theorem stepKeepsBufOk : Obligations.StepKeepsBufOk := by
  intro s t hs h
  have hs' : s.popped.BufOk := hs
  rcases step_next h with ⟨-, h⟩ | ⟨-, h⟩ | ⟨-, rfl⟩
  · exact hostTurn_bufOk hs' h
  · exact engineTurn_bufOk hs' h
  · exact resetTurn_bufOk hs'

/-! ## Which accesses have a meaning (R67, R70) -/

/-- The accesses that 20_memory.md R67 gives a meaning: 32-bit ones of a register slot, byte ones of a BUF byte. -/
def HasMeaning (p : Params) (w : Width) (addr : Nat) : Prop :=
  (w = .w32 ∧ ∃ off, off < 256 ∧ off % 4 = 0 ∧ addr = p.regBase + off) ∨
  (w = .w8 ∧ ∃ a, a < p.bufBytes ∧ addr = p.bufBase + a)

/-- With disjoint windows an access reaches a target exactly when it has a meaning. -/
theorem route_ok_iff {p : Params} (hp : p.Legal) (w : Width) (addr : Nat) :
    (∃ t, route p w addr = .ok t) ↔ HasMeaning p w addr := by
  constructor
  · rintro ⟨t, ht⟩
    rcases route_ok ht with ⟨off, -, hw, hlt, h4, ha⟩ | ⟨a, -, hw, hlt, ha⟩
    · exact .inl ⟨hw, off, hlt, h4, ha⟩
    · exact .inr ⟨hw, a, hlt, ha⟩
  · rintro (⟨rfl, off, hlt, h4, rfl⟩ | ⟨rfl, a, hlt, rfl⟩)
    · exact ⟨_, route_reg hlt h4⟩
    · exact ⟨_, route_buf hp hlt⟩

/-- The outcome of an access is a next state when the access reaches a target, and else the refusal that `route` names. -/
def FollowsRoute (p : Params) (w : Width) (addr : Nat) (o : Host.Outcome State Fault Refusal) : Prop :=
  (∃ t u, route p w addr = .ok t ∧ o = .next u) ∨ ∃ r, route p w addr = .error r ∧ o = .refused r

/-- A host read is served or refused by its route alone: the hazard of a busy BUF read is a next state too. -/
theorem hostRead_followsRoute (w : Width) (addr x : Nat) (s : State) :
    FollowsRoute s.params w addr (hostRead w addr x s) := by
  unfold FollowsRoute hostRead busRead
  rcases route s.params w addr with r | off | a
  · exact .inr ⟨r, rfl, rfl⟩
  · exact .inl ⟨_, _, rfl, rfl⟩
  · cases s.regs.status.busy <;> exact .inl ⟨_, _, rfl, rfl⟩

/-- A host write is served or refused by its route alone. -/
theorem hostWrite_followsRoute (w : Width) (addr : Nat) (v : Word) (s : State) :
    FollowsRoute s.params w addr (hostWrite w addr v s) := by
  unfold FollowsRoute hostWrite busWrite
  rcases route s.params w addr with r | off | a
  · exact .inr ⟨r, rfl, rfl⟩
  · exact .inl ⟨_, _, rfl, rfl⟩
  · cases s.regs.status.busy <;> exact .inl ⟨_, _, rfl, rfl⟩

/-- An access is served exactly when it has a meaning, and refused exactly when it has none. -/
theorem FollowsRoute.served_iff {p : Params} {w : Width} {addr : Nat} {o : Host.Outcome State Fault Refusal}
    (h : FollowsRoute p w addr o) (hp : p.Legal) :
    (HasMeaning p w addr ↔ ∃ u, o = .next u) ∧ (¬ HasMeaning p w addr ↔ ∃ r, o = .refused r) := by
  rw [← route_ok_iff hp]
  rcases h with ⟨t, u, hr, rfl⟩ | ⟨r, hr, rfl⟩ <;> simp [hr]

/-- A refused access reaches no target. -/
theorem FollowsRoute.route_error {p : Params} {w : Width} {addr : Nat} {o : Host.Outcome State Fault Refusal}
    {r : Refusal} (h : FollowsRoute p w addr o) (hr : o = .refused r) : route p w addr = .error r := by
  subst hr
  rcases h with ⟨t, u, -, ho⟩ | ⟨r', hroute, ho⟩
  · cases ho
  · cases ho; exact hroute

/-- An access without a meaning is refused. -/
theorem FollowsRoute.refused {p : Params} {w : Width} {addr : Nat} {o : Host.Outcome State Fault Refusal}
    (h : FollowsRoute p w addr o) (hp : p.Legal) (hno : ¬ HasMeaning p w addr) : ∃ r, o = .refused r := by
  obtain ⟨-, hrefused⟩ := h.served_iff hp
  exact hrefused.1 hno

/-- Settles O20: reads and writes alike follow the route of their address. -/
theorem otherAccessesRefused : Obligations.OtherAccessesRefused := by
  intro s w addr hp
  refine ⟨fun x hat => ?_, fun o hat => ?_⟩
  · rw [hostTurn_of_hostAt hat]
    exact (hostRead_followsRoute w addr x s).served_iff hp
  · rw [hostTurn_of_hostAt hat]
    exact (hostWrite_followsRoute w addr (operandValue o s.host) s).served_iff hp

/-! ## Byte accesses of BUF (R62, R68) -/

/-- A host byte write to a BUF byte while BUSY = 0 writes the low byte of its value. -/
theorem hostWrite_buf {s : State} {a : Nat} (hp : s.params.Legal) (hlt : a < s.params.bufBytes)
    (hb : s.regs.status.busy = false) (v : Word) :
    hostWrite .w8 (s.params.bufBase + a) v s =
      .next (advance { s with buf := Memory.write s.buf a (v.setWidth 8) }) := by
  simp [hostWrite, busWrite, route_buf hp hlt, hb]

/-- A host byte read of a BUF byte while BUSY = 0 assigns the byte, widened with zeros. -/
theorem hostRead_buf {s : State} {a : Nat} (hp : s.params.Legal) (hlt : a < s.params.bufBytes)
    (hb : s.regs.status.busy = false) (x : Nat) :
    hostRead .w8 (s.params.bufBase + a) x s =
      .next (advance { s with host := setVar x ((Memory.read s.buf a).setWidth 32) s.host }) := by
  simp [hostRead, busRead, route_buf hp hlt, hb]

/-- A byte access past the end of BUF has no meaning (20_memory.md R62): it is no 32-bit access, and not in the BUF
window. -/
theorem not_hasMeaning_past_buf {p : Params} {a : Nat} (h : p.bufBytes ≤ a) :
    ¬ HasMeaning p .w8 (p.bufBase + a) := by
  rintro (⟨hw, -⟩ | ⟨-, b, hlt, ha⟩)
  · cases hw
  · omega

/-- Settles O19: inside BUF by the laws of read after write, past its end because the access has no meaning. -/
theorem hostByteAccess : Obligations.HostByteAccess := by
  intro s a hp hwf
  refine ⟨fun o hat hlt hb => ⟨_, (hostTurn_of_hostAt hat).trans (hostWrite_buf hp hlt hb _), ?_⟩,
    fun x hat hlt hb => ⟨_, (hostTurn_of_hostAt hat).trans (hostRead_buf hp hlt hb x), ?_⟩,
    fun o hat hle => ?_, fun x hat hle => ?_⟩
  · obtain ⟨hfault, -⟩ := hat
    exact ⟨Memory.read_write_same hwf a _, fun b hne => Memory.read_write_other hne _, rfl, rfl, hfault, rfl⟩
  · obtain ⟨hfault, -⟩ := hat
    have hvar : hostVar (setVar x ((Memory.read s.buf a).setWidth 32) s.host) x = (Memory.read s.buf a).setWidth 32 :=
      hostVar_setVar_same x _ s.host
    exact ⟨(congrArg BitVec.toNat hvar).trans (BitVec.toNat_setWidth_of_le (by decide)), rfl, rfl, rfl, hfault, rfl⟩
  · rw [hostTurn_of_hostAt hat]
    exact (hostWrite_followsRoute ..).refused hp (not_hasMeaning_past_buf hle)
  · rw [hostTurn_of_hostAt hat]
    exact (hostRead_followsRoute ..).refused hp (not_hasMeaning_past_buf hle)

/-! ## Side effects of register accesses (R69) -/

/-- Only a write to CMD or STATUS touches the latch or the flags. -/
theorem writeSlot_latch_status {off : Nat} (hcmd : off ≠ 0x1C) (hstatus : off ≠ 0x20) (w : Word) (s : State) :
    (writeSlot off w s).latch = s.latch ∧ (writeSlot off w s).regs.status = s.regs.status := by
  rcases writeSlot_cases off w s with ⟨h, -⟩ | ⟨h, -⟩ | ⟨h, -⟩ | ⟨-, -, hlatch, hst, -⟩
  · exact absurd h hcmd
  · exact absurd h hcmd
  · exact absurd h hstatus
  · exact ⟨hlatch, hst⟩

/-- Settles O22: a read that records no hazard assigns a host variable, and a slot write's frame is the register's. -/
theorem readsHaveNoSideEffects : Obligations.ReadsHaveNoSideEffects := by
  refine ⟨fun s t w addr x h hsame hnone => ?_, fun s off w hcmd hstatus => ?_⟩
  · rcases hostRead_next h with ⟨v, -, rfl⟩ | ⟨-, rfl, -⟩
    · rfl
    · rw [hnone] at hsame; cases hsame
  · obtain ⟨hlatch, hst⟩ := writeSlot_latch_status hcmd hstatus w s
    obtain ⟨-, hbuf, -⟩ := writeSlot_frame off w s
    exact ⟨hlatch, hst, hbuf, fun off' hne hbpf => readSlot_writeSlot_other hcmd hstatus hne hbpf w s⟩

/-! ## Checked programs (R67, R98) -/

/-- A refused jump has no label to go to. -/
theorem jumpTo_refused {l : Nat} {s : State} {r : Refusal} (h : jumpTo l s = .refused r) :
    Stmt.label l ∉ s.host.prog := by
  unfold jumpTo at h
  split at h
  · cases h
  · rename_i hnone
    intro hmem
    simpa using List.findIdx?_eq_none_iff.1 hnone _ hmem

/-- Why a statement of the host is refused: its access reaches no target, or its label is not in the program. -/
theorem execStmt_refused {st : Stmt} {s : State} {r : Refusal} (h : execStmt st s = .refused r) :
    (∃ w addr, stmtAccess s.params st = some (w, addr) ∧ route s.params w addr = .error r) ∨
    (∃ l, stmtTarget st = some l ∧ Stmt.label l ∉ s.host.prog) := by
  cases st <;> simp only [execStmt] at h
  case wr off o => exact .inl ⟨_, _, rfl, (hostWrite_followsRoute ..).route_error h⟩
  case rd off t => exact .inl ⟨_, _, rfl, (hostRead_followsRoute ..).route_error h⟩
  case sb a o => exact .inl ⟨_, _, rfl, (hostWrite_followsRoute ..).route_error h⟩
  case lb a t => exact .inl ⟨_, _, rfl, (hostRead_followsRoute ..).route_error h⟩
  case writeAt w addr o => exact .inl ⟨_, _, rfl, (hostWrite_followsRoute ..).route_error h⟩
  case readAt w addr t => exact .inl ⟨_, _, rfl, (hostRead_followsRoute ..).route_error h⟩
  case bset t n l =>
    split at h
    · exact .inr ⟨l, rfl, jumpTo_refused h⟩
    · cases h
  case jump l => exact .inr ⟨l, rfl, jumpTo_refused h⟩
  case label l => cases h

/-- A turn of the host is refused only at a statement that is refused. -/
theorem hostTurn_refused {s : State} {r : Refusal} (h : hostTurn s = .refused r) :
    ∃ st ∈ s.host.prog, execStmt st s = .refused r := by
  unfold hostTurn at h
  split at h
  · cases h
  · split at h
    · cases h
    · rename_i st hst
      exact ⟨st, List.mem_of_getElem? hst, h⟩

/-- What `programOk` says of each statement's access and of its label. -/
theorem programOk_stmt {p : Params} {prog : List Stmt} (h : programOk p prog = true) {st : Stmt} (hst : st ∈ prog) :
    (∀ w addr, stmtAccess p st = some (w, addr) → (route p w addr).isOk = true) ∧
    (∀ l, stmtTarget st = some l → Stmt.label l ∈ prog) := by
  have hboth := List.all_eq_true.1 h st hst
  rw [Bool.and_eq_true] at hboth
  obtain ⟨haccess, htarget⟩ := hboth
  exact ⟨fun w addr hw => by simpa [hw] using haccess, fun l hl => by simpa [hl] using htarget⟩

/-- Settles O24: both reasons for a refusal are excluded by `programOk`. -/
theorem checkedProgramNeverRefused : Obligations.CheckedProgramNeverRefused := by
  intro s hok r h
  obtain ⟨st, hst, h⟩ := hostTurn_refused h
  obtain ⟨haccess, htarget⟩ := programOk_stmt hok hst
  rcases execStmt_refused h with ⟨w, addr, hw, herr⟩ | ⟨l, hl, hmissing⟩
  · have hroute := haccess w addr hw
    rw [herr] at hroute
    cases hroute
  · exact hmissing (htarget l hl)

end Sys2Proof.Machine
end

section
/-! PROOFS. Encodings (30_encoding.md): the fields of a word and the word of the fields, which words decode to a command,
and the branches of a host program. -/

namespace Sys2Proof

/-! ## Command words (R90 to R95) -/

/-- A word is the word of its own three fields (R90). -/
theorem wordOfFields_fieldsOf (w : Word) : wordOfFields (fieldsOf w) = w := by
  apply BitVec.eq_of_getLsbD_eq
  intro n hn
  simp only [wordOfFields, fieldsOf, BitVec.getLsbD_or, BitVec.getLsbD_shiftLeft, BitVec.getLsbD_setWidth,
    BitVec.getLsbD_extractLsb', BitVec.getLsbD_ofBool]
  rcases (by omega : n < 4 ∨ n = 4 ∨ 5 ≤ n) with hop | rfl | hrsv
  · simp [hn, hop, (by omega : n < 5)]
  · simp
  · have h5 : ¬ n < 5 := by omega
    have h4 : ¬ n < 4 := by omega
    have h0 : ¬ n - 4 = 0 := by omega
    simp [hn, h5, h4, h0, (by omega : n - 5 < 32), (by omega : n - 5 < 27), (by omega : 5 + (n - 5) = n)]

/-- The fields of a command's word are the table's (R92). -/
theorem fieldsOf_encode (i : Instr) : fieldsOf (encode i) = encodeFields i := by
  have hall : Laws.Encoding.Statement i := by
    cases i
    case nop => exact Laws.Encoding.nop
    case bframe => exact Laws.Encoding.bframe
    case bdeframe => exact Laws.Encoding.bdeframe
    case bdeframeS => exact Laws.Encoding.bdeframeS
    case render => exact Laws.Encoding.render
    case extract => exact Laws.Encoding.extract
    case pframe => exact Laws.Encoding.pframe
    case psplit => exact Laws.Encoding.psplit
  obtain ⟨-, hfields, -⟩ := hall
  exact hfields

/-- A word is a command's word exactly when its fields are the table's. -/
theorem fieldsOf_eq_encodeFields_iff (w : Word) (i : Instr) : fieldsOf w = encodeFields i ↔ w = encode i := by
  constructor
  · intro h
    calc w = wordOfFields (fieldsOf w) := (wordOfFields_fieldsOf w).symm
      _ = encode i := congrArg wordOfFields h
  · rintro rfl
    exact fieldsOf_encode i

/-- Two command words' fields are equal when each of the three is. -/
theorem commandFields_eq_iff (f g : CommandFields) :
    f = g ↔ f.op = g.op ∧ f.strict = g.strict ∧ f.rsv = g.rsv := by
  cases f
  cases g
  simp

/-- No command's word has an RSV bit (R95). -/
theorem encodeFields_rsv (i : Instr) : (encodeFields i).rsv = 0#27 := by cases i <;> rfl

/-- OP and S select a command exactly when they are its row of the table (R91, R92). -/
theorem decodeOp_eq_ok_iff (op : BitVec 4) (strict : Bool) (i : Instr) :
    decodeOp op strict = .ok i ↔ op = (encodeFields i).op ∧ strict = (encodeFields i).strict := by
  revert op strict
  cases i <;> decide

/-- A word decodes to a command exactly when its fields are that command's (R91). -/
theorem decode_eq_ok_iff (w : Word) (i : Instr) : decode w = .ok i ↔ fieldsOf w = encodeFields i := by
  rw [commandFields_eq_iff]
  unfold decode
  by_cases hrsv : (fieldsOf w).rsv = 0#27
  · simp [hrsv, decodeOp_eq_ok_iff, encodeFields_rsv]
  · simp [hrsv, encodeFields_rsv]

/-- Settles O1: the fields of each word are a row of the table. -/
theorem tableWordsDecode : Obligations.TableWordsDecode := by
  unfold Obligations.TableWordsDecode
  simp only [decode_eq_ok_iff]
  decide

/-- Settles O2: decoding compares the fields with the table's, and a word is made of its fields. -/
theorem decodeAgreesWithEncode : Obligations.DecodeAgreesWithEncode :=
  ⟨by decide, fun w i => (decode_eq_ok_iff w i).trans (fieldsOf_eq_encodeFields_iff w i)⟩

end Sys2Proof

namespace Sys2Proof.Machine

/-! ## Branches of the host (R98) -/

/-- A jump to a label that the program holds goes to its first statement. -/
theorem jumpTo_found {l p : Nat} {s : State} (h : s.host.prog.findIdx? (fun st => st == .label l) = some p) :
    jumpTo l s = .next { s with host := { s.host with pos := p } } := by
  simp [jumpTo, h]

/-- BSET jumps when its bit is 1. -/
theorem execStmt_bset_taken {x n : Nat} {s : State} (h : (hostVar s.host x).getLsbD n = true) (l : Nat) :
    execStmt (.bset x n l) s = jumpTo l s := by
  simp [execStmt, h]

/-- BSET goes on to the next statement when its bit is 0. -/
theorem execStmt_bset_untaken {x n : Nat} {s : State} (h : (hostVar s.host x).getLsbD n = false) (l : Nat) :
    execStmt (.bset x n l) s = .next (advance s) := by
  simp [execStmt, h]

/-- Settles O23: the turn of a host is its statement, and a branch that is taken finds its label. -/
theorem hostBranches : Obligations.HostBranches := by
  intro s l p hp
  refine ⟨fun hat => ?_, fun x n hat => ⟨fun hbit => ?_, fun hbit => ?_⟩, fun hat => ?_⟩
  · exact (hostTurn_of_hostAt hat).trans (jumpTo_found hp)
  · exact (hostTurn_of_hostAt hat).trans ((execStmt_bset_taken hbit l).trans (jumpTo_found hp))
  · exact (hostTurn_of_hostAt hat).trans (execStmt_bset_untaken hbit l)
  · exact hostTurn_of_hostAt hat

end Sys2Proof.Machine
end

section
/-! PROOFS. The life of a command (40_command_lifecycle.md): issue, the engine's step as the `settle` of a result, and
what that step leaves unchanged. -/

namespace Sys2Proof.Machine

/-! ## The end of a command (R115 to R118) -/

@[simp] theorem settle_ok (r : CmdResult) (s : State) : settle (.ok r) s = complete r s := rfl
@[simp] theorem settle_error (c : ErrCode) (s : State) : settle (.error c) s = failWith c s := rfl

/-- Completed or failed, a command leaves the latch empty, BUSY = 0 and DONE = 1. -/
theorem settle_ends (r : Except ErrCode CmdResult) (s : State) :
    (settle r s).latch = none ∧ (settle r s).regs.status.busy = false ∧ (settle r s).regs.status.done = true := by
  cases r <;> exact ⟨rfl, rfl, rfl⟩

/-- Completed or failed, a command leaves OVERRUN alone (10_state.md R37). -/
theorem settle_overrun (r : Except ErrCode CmdResult) (s : State) :
    (settle r s).regs.status.overrun = s.regs.status.overrun := by
  cases r <;> rfl

/-- The end of a command writes BUF, the results and STATUS only. -/
theorem settle_keepsRest (r : Except ErrCode CmdResult) (s : State) : KeepsRest s (settle r s) := by
  cases r <;> simp [KeepsRest]

/-- In states with the same BUF, one result leaves the same BUF, latch, results and flags, OVERRUN aside. -/
theorem settle_agrees_of_buf_eq {s s' : State} (h : s'.buf = s.buf) (r : Except ErrCode CmdResult) :
    (settle r s').buf = (settle r s).buf ∧ (settle r s').latch = (settle r s).latch ∧
    (settle r s').regs.resultLen = (settle r s).regs.resultLen ∧
    (settle r s').regs.resultAux = (settle r s).regs.resultAux ∧
    (settle r s').regs.firstMism = (settle r s).regs.firstMism ∧
    (settle r s').regs.status =
      { (settle r s).regs.status with overrun := (settle r s').regs.status.overrun } := by
  cases r <;> simp [h, Status.completed, Status.failed]

/-- A failure leaves what `fail` leaves (R118). -/
theorem failWith_failedWith (c : ErrCode) (s : State) : FailedWith s (failWith c s) c :=
  ⟨rfl, rfl, rfl, rfl, rfl, rfl⟩

/-- A command that answers a next state ends with a result, a success being its body's. -/
theorem exec_next_settle {i : Instr} {s t : State} (h : exec i s = .next t) :
    ∃ L r, s.latch = some L ∧ t = settle r s ∧ ∀ res, r = .ok res → bodyOf i L s.buf = .ok res := by
  obtain ⟨L, hL, ⟨res, -, hb, ht⟩ | ⟨c, -, ht⟩⟩ := exec_next h
  · exact ⟨L, .ok res, hL, ht, fun _ hres => by cases hres; exact hb⟩
  · exact ⟨L, .error c, hL, ht, nofun⟩

/-- An address that lies in no destination range of the command reads as before (R116, R120). -/
theorem read_settle_outside {i : Instr} {L : Latch} {s : State} {r : Except ErrCode CmdResult} {a : Nat}
    (hb : ∀ res, r = .ok res → bodyOf i L s.buf = .ok res)
    (ha : ∀ d ∈ (operandRanges i L).dests, a < d.start ∨ d.start + d.len ≤ a) :
    Memory.read (settle r s).buf a = Memory.read s.buf a := by
  cases r with
  | error c => rfl
  | ok res =>
    refine Memory.read_writeAll_other fun c hc hca => ?_
    obtain ⟨d, hd, hlo, hhi⟩ := bodyOf_writes (hb res rfl) c hc
    have hout := ha d hd
    omega

/-- Settles O25: the end of a command keeps the rest, and a success writes its destination ranges only. -/
theorem commandFrame : Obligations.CommandFrame := by
  intro i s t h
  obtain ⟨L, r, hL, rfl, hb⟩ := exec_next_settle h
  obtain ⟨hlatch, hbusy, hdone⟩ := settle_ends r s
  refine ⟨settle_keepsRest r s, hlatch, settle_overrun r s, hbusy, hdone, fun L' a hL' ha => ?_⟩
  obtain rfl : L = L' := Option.some.inj (hL.symm.trans hL')
  exact read_settle_outside hb ha

/-- Settles O26: ERR = 1 is left by a failure alone, whose code is never NONE, and ERR = 0 by a completion. -/
theorem failedCommandEffects : Obligations.FailedCommandEffects := by
  intro i s t h
  obtain ⟨L, -, ⟨r, -, -, rfl⟩ | ⟨c, hc, rfl⟩⟩ := exec_next h
  · exact ⟨nofun, fun _ => rfl⟩
  · exact ⟨fun _ => ⟨hc, failWith_failedWith c s⟩, nofun⟩

/-! ## The engine step (R115, R125) -/

/-- Exec of a latched word: ILLEGAL_CMD if it decodes to no command (R91, R122). -/
def latchResult (L : Latch) (bufBytes : Nat) (buf : Memory) : Except ErrCode CmdResult :=
  match decode L.cmd with
  | .error _ => .error .illegalCmd
  | .ok i => execResult i (bodyOf i) L bufBytes buf

/-- The engine's turn on a latched word ends it with its result. -/
theorem engineTurn_latched {s : State} {L : Latch} (hL : s.latch = some L) :
    engineTurn s = .next (settle (latchResult L s.params.bufBytes s.buf) s) := by
  rcases hd : decode L.cmd with e | i
  · simp [engineTurn, latchResult, hL, hd]
  · simp [engineTurn, latchResult, hL, hd, exec_latched hL]

/-- The engine's turn on a word that decodes is the command's exec. -/
theorem engineTurn_eq_exec {s : State} {L : Latch} {i : Instr} (hL : s.latch = some L) (hi : decode L.cmd = .ok i) :
    engineTurn s = exec i s := by
  simp [engineTurn, hL, hi]

/-- A step in which the engine moves is its turn. -/
theorem step_of_mover_engine {s : State} (hm : s.mover = .engine) : step s = engineTurn s.popped := by
  rw [step_eq, hm]; rfl

/-- Settles O4: the mover's turn, on the schedule's tail. -/
theorem stepRunsDecodedCommand : Obligations.StepRunsDecodedCommand := by
  intro s L i hL hi hm
  exact (step_of_mover_engine hm).trans (engineTurn_eq_exec (s := s.popped) hL hi)

/-- While BUSY = 1 no register write touches the latch (R114). -/
theorem writeSlot_latch_of_busy {s : State} (hb : s.regs.status.busy = true) (off : Nat) (w : Word) :
    (writeSlot off w s).latch = s.latch := by
  rcases writeSlot_cases off w s with ⟨-, hidle, -⟩ | ⟨-, -, hw⟩ | ⟨-, hw⟩ | ⟨-, -, hlatch, -⟩
  · rw [hb] at hidle; cases hidle
  · rw [hw]
  · rw [hw]
  · exact hlatch

/-- While BUSY = 1 no turn of the host touches the latch (R114). -/
theorem hostTurn_latch_of_busy {s u : State} (hb : s.regs.status.busy = true) (h : hostTurn s = .next u) :
    u.latch = s.latch := by
  rcases hostTurn_cases h with ⟨ha, rfl⟩ | ⟨off, v, -, rfl⟩ | ⟨a, v, -, -, rfl⟩ | ⟨-, rfl, -⟩
  · rfl
  · exact writeSlot_latch_of_busy hb off v
  · rfl
  · rfl

/-- Settles O15: the engine's result is that of the latch, the parameters and BUF, none of which the write touches. -/
theorem writeWhileBusyLeavesCommand : Obligations.WriteWhileBusyLeavesCommand := by
  intro s off w hb
  have hlatch := writeSlot_latch_of_busy hb off w
  refine ⟨hlatch, fun t ht hsome => ?_⟩
  obtain ⟨L, hL⟩ := Option.ne_none_iff_exists'.1 hsome
  obtain ⟨hparams, hbuf, -⟩ := writeSlot_frame off w s
  have hu := engineTurn_latched (hlatch.trans hL)
  rw [hparams, hbuf] at hu
  rw [engineTurn_latched hL] at ht
  injection ht with ht
  subst ht
  obtain ⟨hbuf', hlatch', hlen, haux, hfirst, hst⟩ :=
    settle_agrees_of_buf_eq hbuf (latchResult L s.params.bufBytes s.buf)
  refine ⟨_, hu, hbuf', hlatch', hlen, haux, hfirst, by rw [hst], by rw [hst], by rw [hst], by rw [hst], by rw [hst],
    fun hcmd hstatus => ?_⟩
  obtain ⟨-, hkept⟩ := writeSlot_latch_status hcmd hstatus w s
  rw [settle_overrun, settle_overrun, hkept]

/-- Settles O51: only the engine and a reset empty the latch, and the engine's turn always ends the command. -/
theorem engineStepStaysEnabled : Obligations.EngineStepStaysEnabled := by
  refine ⟨fun s t L ⟨hbusy, _⟩ hL h => ?_, fun s L hL hm => ?_⟩
  · have hb : s.regs.status.busy = true := by rw [hbusy, hL]; rfl
    rcases step_next h with ⟨-, h⟩ | ⟨hm, h⟩ | ⟨hm, rfl⟩
    · exact .inl ((hostTurn_latch_of_busy (s := s.popped) hb h).trans hL)
    · rw [engineTurn_latched (s := s.popped) hL] at h
      injection h with h
      obtain ⟨hlatch, hidle, hdone⟩ := h ▸ settle_ends _ s.popped
      exact .inr (.inr ⟨hlatch, hm, hdone, hidle⟩)
    · exact .inr (.inl ⟨rfl, hm⟩)
  · obtain ⟨hlatch, hidle, hdone⟩ := settle_ends (latchResult L s.params.bufBytes s.buf) s.popped
    exact ⟨_, (step_of_mover_engine hm).trans (engineTurn_latched (s := s.popped) hL), hlatch, hdone, hidle⟩

/-! ## Issue (R110 to R112) -/

/-- A command's own word decodes to it (30_encoding.md R92). -/
theorem decode_encode (i : Instr) : decode (encode i) = .ok i := (decode_eq_ok_iff _ i).2 (fieldsOf_encode i)

/-- With an empty schedule nothing is taken from it. -/
theorem popped_of_sched_nil {s : State} (h : s.sched = []) : s.popped = s := by
  unfold State.popped; rw [h, List.tail_nil, ← h]

/-- With an empty schedule and no latch the host moves (notes/assumptions/3.md). -/
theorem mover_host {s : State} (hs : s.sched = []) (hL : s.latch = none) : s.mover = .host := by
  simp [State.mover, defaultAgent, hs, hL]

/-- With an empty schedule and a latched command the engine moves (notes/assumptions/3.md). -/
theorem mover_engine {s : State} {L : Latch} (hs : s.sched = []) (hL : s.latch = some L) : s.mover = .engine := by
  simp [State.mover, defaultAgent, hs, hL]

/-- The host's turn at a CMD write while BUSY = 0 accepts the word (R110, R111). -/
theorem hostTurn_issue {s : State} {w : Word} (hb : s.regs.status.busy = false) (hat : s.hostAt (.wr 0x1C (.lit w))) :
    hostTurn s = .next (advance (acceptCmd w s)) :=
  calc hostTurn s = execStmt (.wr 0x1C (.lit w)) s := hostTurn_of_hostAt hat
    _ = .next (advance (writeSlot 0x1C w s)) := hostWrite_reg (by decide) (by decide) w s
    _ = .next (advance (acceptCmd w s)) := by rw [show writeSlot 0x1C w s = acceptCmd w s from writeCmd_idle hb w]

/-- Settles O5: the host's turn accepts the word, and the engine, which moves next, runs the command it encodes. -/
theorem issuedCommandIsPerformed : Obligations.IssuedCommandIsPerformed := by
  intro s i _ hnone hb hs hat
  have hissue : step s = .next (advance (acceptCmd (encode i) s)) := by
    rw [step_eq, mover_host hs hnone, popped_of_sched_nil hs]; exact hostTurn_issue hb hat
  generalize ht : advance (acceptCmd (encode i) s) = t at hissue
  have hsched : t.sched = [] := by rw [← ht]; exact hs
  have hlatch : t.latch = some (latchOf (encode i) s.regs) := by rw [← ht]; rfl
  have hstep : step t = exec i t := by
    rw [step_of_mover_engine (mover_engine hsched hlatch), popped_of_sched_nil hsched]
    exact engineTurn_eq_exec hlatch (decode_encode i)
  obtain ⟨hempty, hidle, hdone⟩ := settle_ends
    (execResult i (bodyOf i) (latchOf (encode i) s.regs) t.params.bufBytes t.buf) t
  refine ⟨t, _, hissue, hlatch, ?_, ?_, ?_, ?_, hstep, exec_latched hlatch, hempty, hidle, hdone⟩ <;> subst ht <;> rfl

/-! ## NOP (R124) -/

/-- NOP has no operand range and ignores the geometry, so its checks pass. -/
theorem nop_checksPass (L : Latch) (n : Nat) : ChecksPass .nop L n := ⟨nofun, rfl, rfl⟩

/-- Only NOP's own word is a command whose low five bits are 0 (30_encoding.md R92). -/
theorem encode_eq_zero_of_low {i : Instr} (h : (encode i).extractLsb' 0 5 = 0#5) : encode i = 0 := by
  revert h
  cases i <;> decide

/-- A nonzero word whose low five bits are 0 is illegal: it has an RSV bit (30_encoding.md R95). -/
theorem decode_error_of_low {w : Word} (hlow : w.extractLsb' 0 5 = 0#5) (hw : w ≠ 0) : ∃ e, decode w = .error e := by
  rcases hd : decode w with e | i
  · exact ⟨e, rfl⟩
  · obtain rfl : w = encode i := (fieldsOf_eq_encodeFields_iff w i).1 ((decode_eq_ok_iff w i).1 hd)
    exact absurd (encode_eq_zero_of_low hlow) hw

/-- STATUS after a success without mismatch reads DONE alone, if OVERRUN was 0. -/
theorem completed_toWord {st : Status} (h : st.overrun = false) : (st.completed false).toWord = 2#32 := by
  rw [Status.completed, h]; decide

/-- Settles O32: NOP's checks pass on any latch, and its body answers zeros and no write. -/
theorem nopCompletes : Obligations.NopCompletes := by
  refine ⟨fun s L hL => ?_, ⟨.strictNotAllowed, by decide⟩, fun w => decode_error_of_low⟩
  exact ⟨_, exec_completes hL (nop_checksPass L _) rfl, ⟨rfl, rfl, rfl, rfl, rfl⟩, rfl, settle_keepsRest (.ok _) s,
    completed_toWord⟩

end Sys2Proof.Machine
end

section
/-! PROOFS. The bit framing family (41_bitframing.md): what a completed command leaves, the bytes that BFRAME, BDEFRAME
and BDEFRAME.S write, what the strict check detects, and the round trip. -/

namespace Sys2Proof.Machine

/-! ## A completed command (40_command_lifecycle.md R115, R117) -/

/-- A command whose checks pass and whose body succeeds leaves its results unnarrowed: they count bits of BUF, which is
at most 2^28 bytes (00_scope.md R5, 20_memory.md R61). -/
theorem exec_completedWith {i : Instr} {s : State} {L : Latch} {r : CmdResult} (hL : s.latch = some L)
    (hp : s.params.Legal) (hc : ChecksPass i L s.params.bufBytes) (hb : bodyOf i L s.buf = .ok r) :
    ∃ t, exec i s = .next t ∧ CompletedWith s t r.len r.aux r.first r.mism ∧ KeepsRest s t ∧
      t.buf = Memory.writeAll s.buf r.writes := by
  obtain ⟨-, hmax, -⟩ := hp
  have ⟨_, hin, _⟩ := hc
  obtain ⟨hlen, haux⟩ := bodyOf_results_le hb hin
  refine ⟨_, exec_completes hL hc hb, ⟨rfl, ?_, ?_, rfl, rfl⟩, settle_keepsRest (.ok r) s, rfl⟩
  · exact Nat.mod_eq_of_lt (by omega)
  · exact Nat.mod_eq_of_lt (by omega)

/-- A command keeps the canonical form of BUF, whether it completes or fails. -/
theorem exec_keeps_wf {i : Instr} {s t : State} (hm : Memory.wf s.buf) (h : exec i s = .next t) : Memory.wf t.buf := by
  obtain ⟨L, -, ⟨r, -, -, rfl⟩ | ⟨c, -, rfl⟩⟩ := exec_next h
  · exact Memory.wf_writeAll hm r.writes
  · exact hm

/-! ## BFRAME (R140 to R142) -/

/-- Bits [8q, 8q + 8) of the string at `A` are the bits of byte `A + q`, the most significant first (20_memory.md R64). -/
theorem bitRead_byte (m : Memory) (A q : Nat) {k : Nat} (hk : k < 8) :
    bitRead m A (8 * q + k) = (Memory.read m (A + q)).getLsbD (7 - k) := by
  unfold bitRead
  rw [show (8 * q + k) / 8 = q by omega, show (8 * q + k) % 8 = k by omega]

/-- What BUF holds after BFRAME's writes, address by address: the byte form of the stream (R141). -/
theorem read_storeFrameStream {m : Memory} (hm : Memory.wf m) (D S n a : Nat) :
    Memory.read (Memory.writeAll m (storeBits D (frameStream m S n))) a =
      if D ≤ a ∧ a < D + 2 * n then
        if (a - D) % 2 = 0 then Memory.read m (S + (a - D) / 2) else checkByte (Memory.read m (S + (a - D) / 2))
      else Memory.read m a := by
  rw [read_storeBits hm, frameStream_length, show ceilDiv (16 * n) 8 = 2 * n by unfold ceilDiv; omega]
  split
  · exact packedByte_frameStream m S n (by omega)
  · rfl

/-- Byte 2j of BFRAME's stream is payload byte j (R141). -/
theorem read_storeFrameStream_even {m : Memory} (hm : Memory.wf m) (D S : Nat) {n j : Nat} (hj : j < n) :
    Memory.read (Memory.writeAll m (storeBits D (frameStream m S n))) (D + 2 * j) = Memory.read m (S + j) := by
  rw [read_storeFrameStream hm, if_pos (by omega), if_pos (by omega), show (D + 2 * j - D) / 2 = j by omega]

/-- Byte 2j + 1 of BFRAME's stream is the check byte of payload byte j (R141). -/
theorem read_storeFrameStream_odd {m : Memory} (hm : Memory.wf m) (D S : Nat) {n j : Nat} (hj : j < n) :
    Memory.read (Memory.writeAll m (storeBits D (frameStream m S n))) (D + 2 * j + 1) =
      checkByte (Memory.read m (S + j)) := by
  rw [read_storeFrameStream hm, if_pos (by omega), if_neg (by omega), show (D + 2 * j + 1 - D) / 2 = j by omega]

/-- Settles O33: the destination reads as the byte form of the stream, whose bits are those of its bytes. -/
theorem bframeResult : Obligations.BframeResult := by
  rintro s L S D n hL hp hm rfl rfl rfl hc
  obtain ⟨t, hexec, hdone, hkeep, hbuf⟩ := exec_completedWith (i := .bframe) hL hp hc rfl
  refine ⟨t, hexec, hdone, hkeep, fun a ha => ?_, fun j hj => ?_⟩
  · rw [hbuf, read_storeFrameStream hm, if_neg (by omega)]
  have heven := read_storeFrameStream_even hm L.dstAddr.toNat L.srcAddr.toNat hj
  have hodd := congrArg BitVec.toNat (read_storeFrameStream_odd hm L.dstAddr.toNat L.srcAddr.toNat hj)
  rw [checkByte_toNat] at hodd
  rw [← hbuf] at heven hodd
  refine ⟨heven, hodd, hodd.trans_le (popcount_le _), fun k hk => ⟨?_, ?_⟩⟩
  · rw [show 16 * j + k = 8 * (2 * j) + k by omega, bitRead_byte _ _ _ hk, heven]
  · rw [show 16 * j + 8 + k = 8 * (2 * j + 1) + k by omega, bitRead_byte _ _ _ hk, ← add_assoc, ← BitVec.testBit_toNat,
      hodd]

/-! ## BDEFRAME (R143, R144) -/

/-- What BUF holds after the deframed bytes were written, address by address (R143). -/
theorem read_deframe {m : Memory} (hm : Memory.wf m) (S D n a : Nat) :
    Memory.read (Memory.writeAll m ((List.range n).map fun j => (D + j, chunkByte m S j))) a =
      if D ≤ a ∧ a < D + n then Memory.read m (S + 2 * (a - D)) else Memory.read m a := by
  rw [Memory.read_writeAll_block hm D n (chunkByte m S), chunkByte_eq]

/-- Settles O34: the writes are byte 2j of the stream for each whole chunk j, and no check byte enters the result. -/
theorem bdeframeResult : Obligations.BdeframeResult := by
  rintro s L S D n hL hp hm rfl rfl rfl hc
  obtain ⟨t, hexec, hdone, hkeep, hbuf⟩ := exec_completedWith (i := .bdeframe) hL hp hc rfl
  refine ⟨t, hexec, hdone, hkeep, fun a ha => ?_, fun j hj => ?_⟩
  · rw [hbuf, read_deframe hm, if_neg (by omega)]
  · rw [hbuf, read_deframe hm, if_pos (by omega), Nat.add_sub_cancel_left]

/-! ## BDEFRAME.S (R146) -/

/-- A byte mismatches exactly if its check byte is not its popcount (R146). -/
theorem mismatch_eq (v c : Byte) : mismatch v c = decide (c.toNat ≠ popcount v) := by
  rw [mismatch, ← checkByte_toNat, Bool.eq_iff_iff, bne_iff_ne, decide_eq_true_iff, ne_eq, ne_eq, BitVec.toNat_inj]

/-- The mismatch of byte j of the stream at `S`, in terms of the bytes of BUF (R146). -/
theorem mismatches_eq_map {m : Memory} {S : Nat} {f : Nat → Bool}
    (hf : ∀ j, f j = decide ((Memory.read m (S + 2 * j + 1)).toNat ≠ popcount (Memory.read m (S + 2 * j)))) (n : Nat) :
    mismatches m S n = (List.range n).map f :=
  List.map_congr_left fun j _ => by rw [mismatch_eq, chunkByte_eq, chunkCheck_eq, hf]

/-- RESULT_AUX counts the indices that mismatch (R146). -/
theorem count_true_map (f : Nat → Bool) (n : Nat) :
    ((List.range n).map f).count true = ((List.range n).filter f).length := by
  rw [List.count, List.countP_map, List.countP_eq_length_filter]
  congr 2
  funext j
  simp

/-- Without a mismatch FIRST_MISM is 0xFFFFFFFF (10_state.md R48). -/
theorem firstMismatch_none {f : Nat → Bool} {n : Nat} (h : ∀ j < n, f j = false) :
    firstMismatch ((List.range n).map f) = noMism := by
  have hnone : ((List.range n).map f).findIdx? id = none := by simpa using h
  rw [firstMismatch, hnone]

/-- FIRST_MISM is the index of the first mismatch (R146). -/
theorem firstMismatch_first {f : Nat → Bool} {n j : Nat} (hj : j < n) (ht : f j = true) (hlow : ∀ k < j, f k = false) :
    firstMismatch ((List.range n).map f) = BitVec.ofNat 32 j := by
  have hsome : ((List.range n).map f).findIdx? id = some j := by
    rw [List.findIdx?_eq_some_iff_getElem]
    exact ⟨by simpa using hj, by simpa using ht, fun k hk => by simpa using hlow k hk⟩
  rw [firstMismatch, hsome]

/-- BDEFRAME.S's two destinations share no byte when its checks pass (40_command_lifecycle.md R121). -/
theorem bdeframeS_dests_disjoint {L : Latch} {bufBytes : Nat} (hc : ChecksPass .bdeframeS L bufBytes)
    {a : Nat} (hlo : L.dstAddr.toNat ≤ a) (hhi : a < L.dstAddr.toNat + L.srcLen.toNat / 16) :
    a < L.dst2Addr.toNat ∨ L.dst2Addr.toNat + ceilDiv (L.srcLen.toNat / 16) 8 ≤ a := by
  obtain ⟨-, -, hover⟩ := hc
  simp only [OperandRanges.overlapping, operandRanges, Option.toList_some, List.any_cons, List.any_nil, Bool.or_false,
    Bool.or_eq_false_iff, BufRange.overlaps, Bool.and_eq_false_iff, decide_eq_false_iff_not] at hover
  obtain ⟨-, hdd⟩ := hover
  omega

/-- Settles O35: the bitmap is written last and holds the mismatches; the bytes of BDEFRAME lie outside it. -/
theorem bdeframeStrictResult : Obligations.BdeframeStrictResult := by
  rintro s L S D D2 n m hL hp hm rfl rfl rfl rfl hmis hc
  obtain ⟨t, hexec, hdone, hkeep, hbuf⟩ := exec_completedWith (i := .bdeframeS) hL hp hc rfl
  simp only [mismatches_eq_map hmis, count_true_map] at hdone hbuf
  rw [Memory.writeAll_append] at hbuf
  generalize hn : L.srcLen.toNat / 16 = n at *
  have hwf := Memory.wf_writeAll hm
    ((List.range n).map fun j => (L.dstAddr.toNat + j, chunkByte s.buf L.srcAddr.toNat j))
  have hread := read_storeBits hwf L.dst2Addr.toNat ((List.range n).map m)
  have hbit := fun j => bitRead_storeBits (k := j) hwf L.dst2Addr.toNat ((List.range n).map m)
  rw [← hbuf, List.length_map, List.length_range] at hread hbit
  refine ⟨t, _, hexec, hdone, hkeep, firstMismatch_none, fun j hj hj1 hlow => ?_, fun j hj => ?_, fun j hj => ?_,
    fun a hD hD2 => ?_⟩
  · rw [firstMismatch_first hj hj1 hlow]
    exact Nat.mod_eq_of_lt (by omega)
  · have hout := bdeframeS_dests_disjoint hc (a := L.dstAddr.toNat + j) (by omega) (by omega)
    rw [hn] at hout
    rw [hread, if_neg (by omega), read_deframe hm, if_pos (by omega), Nat.add_sub_cancel_left]
  · rw [hbit j hj]
    by_cases hjn : j < n <;> simp [hjn]
  · rw [hread, if_neg (by unfold ceilDiv; omega), read_deframe hm, if_neg (by omega)]

/-! ## What the strict check detects (R147) -/

/-- Flipping bit `p` of a string of `n` bits changes the parity of its number of 1 bits. -/
theorem sum_flip_mod_two (f : Nat → Bool) (p n : Nat) :
    ((List.range n).map fun t => (f t ^^ decide (t = p)).toNat).sum % 2 =
      (((List.range n).map fun t => (f t).toNat).sum + if p < n then 1 else 0) % 2 := by
  induction n with
  | zero => rfl
  | succ n ih =>
    simp only [List.range_succ, List.map_append, List.sum_append, List.map_cons, List.map_nil, List.sum_cons,
      List.sum_nil, add_zero]
    by_cases hn : n = p
    · rw [decide_eq_true hn, Bool.xor_true, if_pos (by omega)]
      rw [if_neg (by omega)] at ih
      cases f n <;> simp only [Bool.not_false, Bool.not_true, Bool.toNat_true, Bool.toNat_false] <;> omega
    · rw [decide_eq_false hn, Bool.xor_false]
      split at ih <;> split <;> omega

/-- Flipping one bit of a byte changes its popcount. -/
theorem popcount_ne_of_flip {v b : Byte} {p : Nat} (hp : p < 8)
    (h : ∀ t < 8, v.getLsbD t = (b.getLsbD t ^^ decide (t = p))) : popcount v ≠ popcount b := by
  have hv : popcount v = ((List.range 8).map fun t => (b.getLsbD t ^^ decide (t = p)).toNat).sum := by
    unfold popcount
    rw [List.map_congr_left fun t ht => by rw [h t (List.mem_range.1 ht)]]
  have hpar := sum_flip_mod_two b.getLsbD p 8
  rw [← hv, if_pos hp] at hpar
  intro heq
  rw [heq, popcount] at hpar
  omega

/-- A check byte with the bits of the popcount, the most significant first, is the popcount. -/
theorem toNat_eq_popcount {b c : Byte} (h : ∀ t < 8, c.getLsbD (7 - t) = (popcount b).testBit (7 - t)) :
    c.toNat = popcount b := by
  rw [← checkByte_toNat] at h ⊢
  congr 1
  refine BitVec.eq_of_getLsbD_eq fun i hi => ?_
  have := h (7 - i) (by omega)
  rwa [show 7 - (7 - i) = i by omega, BitVec.testBit_toNat] at this

/-- A framed byte and its check byte with exactly one of their 16 bits flipped always mismatch: a data bit changes the
popcount of the byte, a check bit changes the check byte alone. -/
theorem mismatch_of_flip {b v c : Byte} {k : Nat} (hk : k < 16)
    (hv : ∀ t < 8, v.getLsbD (7 - t) = (b.getLsbD (7 - t) ^^ decide (t = k)))
    (hc : ∀ t < 8, c.getLsbD (7 - t) = ((popcount b).testBit (7 - t) ^^ decide (8 + t = k))) :
    c.toNat ≠ popcount v := by
  intro heq
  by_cases hdata : k < 8
  · have hcheck : c.toNat = popcount b := toNat_eq_popcount fun t ht => by
      rw [hc t ht, decide_eq_false (by omega), Bool.xor_false]
    refine popcount_ne_of_flip (p := 7 - k) (by omega) (fun t ht => ?_) (heq.symm.trans hcheck)
    have := hv (7 - t) (by omega)
    rwa [show 7 - (7 - t) = t by omega, decide_eq_decide.2 (show 7 - t = k ↔ t = 7 - k by omega)] at this
  · have hbyte : v = b := BitVec.eq_of_getLsbD_eq fun i hi => by
      have := hv (7 - i) (by omega)
      rwa [show 7 - (7 - i) = i by omega, decide_eq_false (by omega), Bool.xor_false] at this
    have hflip := hc (k - 8) (by omega)
    rw [← BitVec.testBit_toNat, heq, hbyte, decide_eq_true (by omega)] at hflip
    simp at hflip

/-- Settles O36: the flipped chunk mismatches, so its bitmap bit is set and the count is not 0. -/
theorem strictDetectsOneFlip : Obligations.StrictDetectsOneFlip := by
  refine ⟨?_, fun b c h => by simp [mismatch_eq, h], by decide⟩
  rintro s L S j k b hL hp hm rfl hj hk hc hbits
  obtain ⟨t, first, hexec, hdone, -, -, -, -, hbitmap, -⟩ :=
    bdeframeStrictResult s L _ _ _ _ _ hL hp hm rfl rfl rfl rfl (fun _ => rfl) hc
  have hmis : (Memory.read s.buf (L.srcAddr.toNat + 2 * j + 1)).toNat ≠
      popcount (Memory.read s.buf (L.srcAddr.toNat + 2 * j)) := by
    refine mismatch_of_flip (b := b) hk (fun q hq => ?_) (fun q hq => ?_)
    · rw [← bitRead_byte _ _ _ hq, show 8 * (2 * j) + q = 16 * j + q by omega, hbits q (by omega), if_pos hq]
    · rw [add_assoc, ← bitRead_byte _ _ _ hq, show 8 * (2 * j + 1) + q = 16 * j + (8 + q) by omega,
        hbits (8 + q) (by omega), if_neg (by omega), show 15 - (8 + q) = 7 - q by omega]
  obtain ⟨-, -, -, -, hstatus⟩ := hdone
  refine ⟨t, hexec, ?_, ?_⟩
  · rw [hbitmap j (by omega)]; simp [hj, hmis]
  · rw [hstatus]
    exact decide_eq_true (List.length_pos_of_mem (List.mem_filter.2 ⟨List.mem_range.2 hj, decide_eq_true hmis⟩))

/-! ## The round trip (R145) -/

/-- Settles O37: chunk j of BFRAME's output is payload byte j and its popcount, so that the deframed byte is the payload's
and the strict check passes. -/
theorem frameThenDeframe : Obligations.FrameThenDeframe := by
  intro s t u L K i hp hm hL hc hexec hi hparams hbuf hK hsrc hlen hcK
  obtain ⟨t', hexec', -, -, -, hframed⟩ := bframeResult s L _ _ _ hL hp hm rfl rfl rfl hc
  obtain rfl : t = t' := by rw [hexec] at hexec'; injection hexec'
  have hmu : Memory.wf u.buf := hbuf ▸ exec_keeps_wf hm hexec
  have hpu : u.params.Legal := hparams ▸ hp
  have hn : L.srcLen.toNat = K.srcLen.toNat / 16 := by omega
  rw [← hbuf, ← hsrc] at hframed
  rcases hi with rfl | rfl
  · obtain ⟨v, hv, hdone, -, -, hbytes⟩ := bdeframeResult u K _ _ _ hK hpu hmu rfl rfl hn hcK
    exact ⟨v, hv, hdone, fun j hj => (hbytes j hj).trans (hframed j hj).1⟩
  · obtain ⟨v, first, hv, hdone, -, hnone, -, hbytes, -⟩ :=
      bdeframeStrictResult u K _ _ _ _ _ hK hpu hmu rfl rfl rfl hn (fun _ => rfl) hcK
    have hmatch : ∀ j < L.srcLen.toNat, decide ((Memory.read u.buf (K.srcAddr.toNat + 2 * j + 1)).toNat ≠
        popcount (Memory.read u.buf (K.srcAddr.toNat + 2 * j))) = false := fun j hj => by
      obtain ⟨hbyte, hcheck, -⟩ := hframed j hj
      simp [hbyte, hcheck]
    rw [hnone hmatch, List.filter_eq_nil_iff.2 fun j hj => by simpa using hmatch j (List.mem_range.1 hj)] at hdone
    exact ⟨v, hv, hdone, fun j hj => (hbytes j hj).trans (hframed j hj).1⟩

end Sys2Proof.Machine
end

section
/-! PROOFS. The raster family (42_raster.md): the frame that RENDER draws, the bits that EXTRACT reads back, their round
trip, and the concatenation of frames. -/

namespace Sys2Proof.Machine

/-! ## The grid of blocks (40_command_lifecycle.md R119) -/

/-- Place `d` of block `q` on one side of a frame lies on that side, and in block `q`. -/
theorem block_place {n b q d : Nat} (hq : q < n / b) (hd : d < b) : q * b + d < n ∧ (q * b + d) / b = q := by
  have hend : (q + 1) * b ≤ n := (Nat.mul_le_mul_right b hq).trans (Nat.div_mul_le_self n b)
  rw [Nat.succ_mul] at hend
  exact ⟨by omega, Nat.div_eq_of_lt_le (by omega) (by rw [Nat.succ_mul]; omega)⟩

/-- Every place of a frame's bits belongs to one block, in row-major order (42_raster.md R160). -/
theorem exists_block_of_frameBit {i w h k : Nat} (hlo : i * (w * h) ≤ k) (hhi : k < (i + 1) * (w * h)) :
    ∃ r c, r < h ∧ c < w ∧ k = i * (w * h) + r * w + c := by
  rw [Nat.succ_mul] at hhi
  have hw : 0 < w := Nat.pos_of_ne_zero fun h0 => by rw [h0, Nat.zero_mul] at hlo hhi; omega
  refine ⟨(k - i * (w * h)) / w, (k - i * (w * h)) % w, Nat.div_lt_of_lt_mul (by omega), Nat.mod_lt _ hw, ?_⟩
  have := Nat.div_add_mod' (k - i * (w * h)) w
  omega

/-- The bit of a block lies before the end of its frame's bits. -/
theorem frameBit_lt {i w h r c : Nat} (hr : r < h) (hc : c < w) : i * (w * h) + r * w + c < (i + 1) * (w * h) := by
  have := rowMajor_lt hc hr
  rw [Nat.succ_mul]
  omega

/-- The bits of frame `i` lie outside those of every other frame (R169). -/
theorem frameBit_outside {i j n k : Nat} (hne : i ≠ j) (hlo : i * n ≤ k) (hhi : k < (i + 1) * n) :
    k < j * n ∨ (j + 1) * n ≤ k := by
  rcases Nat.lt_or_gt_of_ne hne with hlt | hgt
  · exact .inl (hhi.trans_le (Nat.mul_le_mul_right n hlt))
  · exact .inr ((Nat.mul_le_mul_right n hgt).trans hlo)

/-! ## RENDER (R160 to R162) -/

/-- The pixel that shows a bit, as a number (R162). -/
theorem pixelOf_toNat (b : Bool) : (pixelOf b).toNat = 255 * b.toNat := by cases b <;> rfl

/-- After RENDER's writes a pixel of the frame shows the stream bit of its block (R160): the pixel address determines
the pixel. -/
theorem read_bodyRender {L : Latch} {m : Memory} {res : CmdResult} (hm : Memory.wf m) (h : bodyRender L m = .ok res)
    {x y : Nat} (hx : x < L.width) (hy : y < L.height) :
    Memory.read (Memory.writeAll m res.writes) (pixelAddr L.dstAddr.toNat L.width x y) =
      pixelOf (streamBit L m (L.frameIndex.toNat * L.bpf + blockIndex L x y)) := by
  cases h
  refine Memory.read_writeAll_mem hm
    (List.mem_flatMap.2 ⟨y, List.mem_range.2 hy, List.mem_map.2 ⟨x, List.mem_range.2 hx, rfl⟩⟩) fun d hd hda => ?_
  obtain ⟨y', -, hd⟩ := List.mem_flatMap.1 hd
  obtain ⟨x', hx', rfl⟩ := List.mem_map.1 hd
  simp only [pixelAddr] at hda
  obtain ⟨rfl, rfl⟩ := rowMajor_inj (List.mem_range.1 hx') hx (show y' * L.width + x' = y * L.width + x by omega)
  rfl

/-- Settles O38: the frame is the only destination, and each of its pixels is written once. -/
theorem renderResult : Obligations.RenderResult := by
  rintro s L S D W H BS Lb i hL hp hm rfl rfl rfl rfl rfl rfl rfl hc
  obtain ⟨t, hexec, hdone, hkeep, hbuf⟩ := exec_completedWith (i := .render) hL hp hc rfl
  refine ⟨t, hexec, hdone, hkeep, fun a ha => ?_, fun x y hx hy => ?_⟩
  · obtain ⟨-, -, -, -, -, hframe⟩ := commandFrame .render s t hexec
    refine hframe L a hL fun d hd => ?_
    obtain rfl := List.mem_singleton.1 hd
    exact ha
  · have hread := read_bodyRender hm rfl hx hy
    rw [← hbuf] at hread
    refine (congrArg BitVec.toNat hread).trans ((pixelOf_toNat _).trans ?_)
    rw [blockIndex, ← Nat.add_assoc]
    rfl

/-! ## EXTRACT (R165, R166, R168) -/

/-- The block sum as a sum over the rows and columns of the block (R165). -/
theorem blockSum_eq (L : Latch) (m : Memory) (r c : Nat) :
    blockSum L m r c = ∑ dy ∈ Finset.range L.block, ∑ dx ∈ Finset.range L.block,
      (Memory.read m (pixelAddr L.srcAddr.toNat L.width (c * L.block + dx) (r * L.block + dy))).toNat := by
  rw [blockSum, List.flatMap, List.sum_flatten, List.map_map]
  rfl

/-- A lower bound of every pixel of a block bounds its sum. -/
theorem le_blockSum {L : Latch} {m : Memory} {r c v : Nat}
    (h : ∀ dy dx, dy < L.block → dx < L.block →
      v ≤ (Memory.read m (pixelAddr L.srcAddr.toNat L.width (c * L.block + dx) (r * L.block + dy))).toNat) :
    v * L.block * L.block ≤ blockSum L m r c := by
  rw [blockSum_eq]
  calc v * L.block * L.block
      = ∑ _dy ∈ Finset.range L.block, ∑ _dx ∈ Finset.range L.block, v := by
        simp only [Finset.sum_const, Finset.card_range, smul_eq_mul]; ring
    _ ≤ _ := Finset.sum_le_sum fun dy hdy => Finset.sum_le_sum fun dx hdx =>
        h dy dx (Finset.mem_range.1 hdy) (Finset.mem_range.1 hdx)

/-- An upper bound of every pixel of a block bounds its sum. -/
theorem blockSum_le {L : Latch} {m : Memory} {r c v : Nat}
    (h : ∀ dy dx, dy < L.block → dx < L.block →
      (Memory.read m (pixelAddr L.srcAddr.toNat L.width (c * L.block + dx) (r * L.block + dy))).toNat ≤ v) :
    blockSum L m r c ≤ v * L.block * L.block := by
  rw [blockSum_eq]
  calc _ ≤ ∑ _dy ∈ Finset.range L.block, ∑ _dx ∈ Finset.range L.block, v :=
        Finset.sum_le_sum fun dy hdy => Finset.sum_le_sum fun dx hdx =>
          h dy dx (Finset.mem_range.1 hdy) (Finset.mem_range.1 hdx)
    _ = v * L.block * L.block := by simp only [Finset.sum_const, Finset.card_range, smul_eq_mul]; ring

/-- BUF after EXTRACT is BUF as its BitWrites left it (R165): both are canonical and read alike. -/
theorem writeAll_bodyExtract {L : Latch} {m : Memory} {res : CmdResult} (hm : Memory.wf m)
    (h : bodyExtract L m = .ok res) : Memory.writeAll m res.writes = extractBits L m := by
  cases h
  obtain ⟨hwf, -⟩ := extractBits_spec hm L
  exact Memory.ext (Memory.wf_writeAll hm _) hwf (read_extract hm L)

/-- Settles O39: BUF afterwards is what the BitWrites left, one per block, each of the exact threshold bit. -/
theorem extractResult : Obligations.ExtractResult := by
  rintro s L S D W H BS i bpf hL hp hm rfl rfl rfl rfl rfl rfl rfl hc
  obtain ⟨t, hexec, hdone, hkeep, hbuf⟩ := exec_completedWith (i := .extract) hL hp hc rfl
  rw [writeAll_bodyExtract hm rfl] at hbuf
  obtain ⟨-, hbelow, hframe, hother⟩ := extractBits_spec hm L
  rw [← hbuf] at hbelow hframe hother
  refine ⟨t, hexec, hdone, hkeep, fun r c hr hcol => (hframe r c hr hcol).trans ?_, hother, hbelow⟩
  rw [blockBit, blockSum_eq]
  rfl

/-- Settles O40: the block's BS × BS pixels bound its sum from below by 128 each, or from above by 127 each. -/
theorem extractDriftTolerance : Obligations.ExtractDriftTolerance := by
  rintro s L W BS bpf r c hL hp hm rfl rfl rfl hr hcol hc
  obtain ⟨t, hexec, -, -, hbit, -⟩ := extractResult s L _ _ _ _ _ _ _ hL hp hm rfl rfl rfl rfl rfl rfl rfl hc
  have hbit : bitRead t.buf L.dstAddr.toNat (L.frameIndex.toNat * L.bpf + r * (L.width / L.block) + c) =
      decide (127 * L.block * L.block < blockSum L s.buf r c) := by
    rw [blockSum_eq]; exact hbit r c hr hcol
  refine ⟨t, hexec, fun hlight => hbit.trans (decide_eq_true ?_), fun hdark => hbit.trans (decide_eq_false ?_)⟩
  · have hpos : 0 < L.block * L.block := by
      have : 0 < L.block := Nat.pos_of_ne_zero fun h0 => by
        rw [show L.blockSize.toNat = 0 from h0, Nat.div_zero] at hr; omega
      exact Nat.mul_pos this this
    have hsum : 128 * L.block * L.block ≤ blockSum L s.buf r c := le_blockSum hlight
    rw [Nat.mul_assoc] at hsum ⊢
    omega
  · exact Nat.not_lt.2 (blockSum_le hdark)

/-! ## The raster inverse (R167) -/

/-- Settles O41: every pixel of a rendered block is 255 times its stream bit, so the block is all light or all dark. -/
theorem renderThenExtract : Obligations.RenderThenExtract := by
  rintro s t u L K k bpf hp hm hL hc hexec hparams hbuf hK hw hh hbs hi hsrc hcK rfl hlo hhi
  obtain ⟨t', hexec', -, -, -, hpix⟩ := renderResult s L _ _ _ _ _ _ _ hL hp hm rfl rfl rfl rfl rfl rfl rfl hc
  obtain rfl : t = t' := by rw [hexec] at hexec'; injection hexec'
  obtain ⟨r, c, hr, hcol, rfl⟩ := exists_block_of_frameBit hlo hhi
  obtain ⟨v, hv, hlight, hdark⟩ := extractDriftTolerance u K _ _ _ r c hK (hparams ▸ hp)
    (hbuf ▸ exec_keeps_wf hm hexec) rfl rfl rfl (by rwa [hh, hbs]) (by rwa [hw, hbs]) hcK
  rw [hbuf, hsrc, hw, hh, hbs, hi] at hlight hdark
  refine ⟨v, hv, ?_⟩
  have hblock := fun dy dx (hdy : dy < L.blockSize.toNat) (hdx : dx < L.blockSize.toNat) => by
    obtain ⟨hy, hyr⟩ := block_place hr hdy
    obtain ⟨hx, hxc⟩ := block_place hcol hdx
    have := hpix _ _ hx hy
    rw [hyr, hxc] at this
    exact this
  generalize (if _ < L.srcLen.toNat then _ else false : Bool) = b at hblock ⊢
  cases b
  · exact hdark fun dy dx hdy hdx => by rw [hblock dy dx hdy hdx]; decide
  · exact hlight fun dy dx hdy hdx => by rw [hblock dy dx hdy hdx]; decide

/-! ## Frames of one stream (R169) -/

/-- Settles O42: EXTRACT writes the bits of its own frame only, and a failed one writes nothing. -/
theorem extractKeepsOtherFrames : Obligations.ExtractKeepsOtherFrames := by
  rintro s t L i k bpf hm hL hexec rfl hne hlo hhi
  obtain ⟨L', hL', hend⟩ := exec_next hexec
  obtain rfl : L = L' := Option.some.inj (hL.symm.trans hL')
  obtain ⟨res, -, hb, rfl⟩ | ⟨c, -, rfl⟩ := hend
  · obtain ⟨-, -, -, hother⟩ := extractBits_spec hm L
    rw [complete_buf, writeAll_bodyExtract hm hb]
    exact hother k (frameBit_outside hne hlo hhi)
  · rfl

/-- A command that ends without an error passed its checks (40_command_lifecycle.md R118, R122). -/
theorem checksPass_of_exec_ok {i : Instr} {s t : State} {L : Latch} (hL : s.latch = some L)
    (h : exec i s = .next t) (hok : t.regs.status.err = false) : ChecksPass i L s.params.bufBytes := by
  obtain ⟨L', hL', ⟨res, hc, -, -⟩ | ⟨c, -, rfl⟩⟩ := exec_next h
  · obtain rfl : L = L' := Option.some.inj (hL.symm.trans hL')
    exact hc
  · cases hok

/-- `T` distinct indices below `T` are all the indices below `T`. -/
theorem exists_index_of_injective {T p : Nat} {f : Nat → Nat} (hlt : ∀ j < T, f j < T)
    (hinj : ∀ j < T, ∀ j' < T, f j = f j' → j = j') (hp : p < T) : ∃ j < T, f j = p := by
  have hsurj := Finset.surjOn_of_injOn_of_card_le (s := Finset.range T) (t := Finset.range T) f
    (fun j hj => by simpa using hlt j (by simpa using hj))
    (fun j hj j' hj' => hinj j (by simpa using hj) j' (by simpa using hj')) le_rfl
  obtain ⟨j, hj, hjp⟩ := hsurj (show p ∈ (Finset.range T : Set Nat) by simpa using hp)
  exact ⟨j, by simpa using hj, hjp⟩

/-- A bit that each turn `ss j ↦ ts j` after turn `j` keeps, and that nothing changes between two turns, stays until the
last turn. -/
theorem bit_kept_to_last {α : Type} {bit : State → α} {ss ts : Nat → State} {T j : Nat} (hj : j < T)
    (hbetween : ∀ n, n + 1 < T → bit (ss (n + 1)) = bit (ts n))
    (hturn : ∀ n, j < n → n < T → bit (ts n) = bit (ss n)) : bit (ts (T - 1)) = bit (ts j) := by
  have hall : ∀ n, j ≤ n → n < T → bit (ts n) = bit (ts j) := fun n hjn => by
    induction n, hjn using Nat.le_induction with
    | base => exact fun _ => rfl
    | succ n hjn ih =>
      exact fun hn => calc
        bit (ts (n + 1)) = bit (ss (n + 1)) := hturn (n + 1) (by omega) hn
        _ = bit (ts n) := hbetween n hn
        _ = bit (ts j) := ih (by omega)
  exact hall (T - 1) (by omega) (by omega)

/-- Settles O54: frame `p` has its EXTRACT, which writes the threshold bits of its blocks; every later EXTRACT is of
another frame and keeps them. -/
theorem extractedFramesConcatenate : Obligations.ExtractedFramesConcatenate := by
  rintro T ss ts Ls f D W H BS bpf rfl hrun hinj hbetween p hp
  have hlt : ∀ j < T, f j < T := fun j hj => by
    obtain ⟨-, -, -, -, -, -, -, -, hfT, -⟩ := hrun j hj; exact hfT
  obtain ⟨j, hj, rfl⟩ := exists_index_of_injective hlt hinj hp
  refine ⟨j, hj, rfl, fun r c hr hcol => ?_⟩
  obtain ⟨hlegal, hm, hL, hD, hW, hH, hBS, hf, -, hexec, hok⟩ := hrun j hj
  obtain ⟨t, hexec', -, -, hbit, -⟩ := extractResult (ss j) (Ls j) _ _ _ _ _ _ _ hL hlegal hm rfl hD hW hH hBS hf
    rfl (checksPass_of_exec_ok hL hexec hok)
  obtain rfl : ts j = t := by rw [hexec] at hexec'; injection hexec'
  rw [← hbit r c hr hcol]
  have hframe := frameBit_lt (i := f j) hr hcol
  have hstream := hframe.trans_le (Nat.mul_le_mul_right (W / BS * (H / BS)) (hlt j hj))
  refine bit_kept_to_last (bit := fun s => bitRead s.buf D _) hj (fun n hn => hbetween n hn _ hstream)
    fun n hjn hn => ?_
  obtain ⟨-, hmn, hLn, rfl, rfl, rfl, rfl, hfn, -, hexecn, -⟩ := hrun n hn
  exact extractKeepsOtherFrames (ss n) (ts n) (Ls n) (f j) _ _ hmn hLn hexecn rfl
    (fun he => by have := hinj j hj n hn (he.trans hfn.symm); omega) (by omega) hframe

end Sys2Proof.Machine
end

section
/-! PROOFS. The payload family (43_payload.md): the payload that PFRAME writes, the separator that PSPLIT finds, and their
round trip. -/

namespace Sys2Proof.Machine

/-! ## PFRAME (R180 to R182) -/

/-- No metadata byte is the separator (R181). -/
theorem holdsSentinel_eq_false_iff (m : Memory) (A n : Nat) :
    holdsSentinel m A n = false ↔ ∀ j < n, Memory.read m (A + j) ≠ 0x0A#8 := by
  simp [holdsSentinel, sentinelByte]

/-- PFRAME's body succeeds exactly on metadata without the separator (R180, R181). -/
theorem bodyPframe_succeeds_iff (L : Latch) (m : Memory) :
    (∃ r, bodyPframe L m = .ok r) ↔ ∀ j < L.srcLen.toNat, Memory.read m (L.srcAddr.toNat + j) ≠ 0x0A#8 := by
  rw [← holdsSentinel_eq_false_iff]
  cases h : holdsSentinel m L.srcAddr.toNat L.srcLen.toNat <;> simp [bodyPframe, h]

/-- A successful PFRAME reports no first mismatch (R180). -/
theorem bodyPframe_first {L : Latch} {m : Memory} {r : CmdResult} (h : bodyPframe L m = .ok r) : r.first = noMism := by
  simp only [bodyPframe] at h
  split at h <;> cases h
  rfl

/-- What BUF holds after a byte string was copied from `src` to `D`, address by address (40_command_lifecycle.md R123). -/
theorem read_copyBytes {m : Memory} (hm : Memory.wf m) (src : Memory) (A n D a : Nat) :
    Memory.read (Memory.writeAll m (copyBytes src A n D)) a =
      if D ≤ a ∧ a < D + n then Memory.read src (A + (a - D)) else Memory.read m a :=
  Memory.read_writeAll_block hm D n (fun j => Memory.read src (A + j)) a

/-- What BUF holds after PFRAME's writes, address by address: the archive, the separator, the metadata, and elsewhere
what it held (R180). -/
theorem read_bodyPframe {L : Latch} {m : Memory} {r : CmdResult} {D n : Nat} (hm : Memory.wf m)
    (h : bodyPframe L m = .ok r) (hD : D = L.dstAddr.toNat) (hn : n = L.srcLen.toNat) (a : Nat) :
    Memory.read (Memory.writeAll m r.writes) a =
      if D + n + 1 ≤ a ∧ a < D + n + 1 + L.src2Len.toNat then Memory.read m (L.src2Addr.toNat + (a - (D + n + 1)))
      else if a = D + n then 0x0A#8
      else if D ≤ a ∧ a < D + n then Memory.read m (L.srcAddr.toNat + (a - D))
      else Memory.read m a := by
  subst hD hn
  simp only [bodyPframe] at h
  split at h <;> cases h
  have hmeta := Memory.wf_writeAll hm (copyBytes m L.srcAddr.toNat L.srcLen.toNat L.dstAddr.toNat)
  rw [Memory.writeAll_append, Memory.writeAll_append, Memory.writeAll_cons, Memory.writeAll_nil,
    read_copyBytes (Memory.wf_write hmeta _ _), Memory.read_write hmeta, read_copyBytes hm]
  rfl

/-- Settles O43: metadata, separator and archive lie side by side in the destination, and the metadata is copied from bytes
that are not the separator. -/
theorem pframeResult : Obligations.PframeResult := by
  rintro s L S S2 D m a hL hp hm rfl rfl hD hn rfl hc hno
  obtain ⟨r, hb⟩ := (bodyPframe_succeeds_iff L s.buf).2 (hn ▸ hno)
  obtain ⟨t, hexec, hdone, hkeep, hbuf⟩ := exec_completedWith (i := .pframe) hL hp hc hb
  obtain ⟨hlen, haux, hmism⟩ := bodyPframe_ok hb
  rw [hlen, haux, hmism, bodyPframe_first hb, ← hn] at hdone
  have hread := read_bodyPframe hm hb hD hn
  rw [← hbuf] at hread
  have hmeta : ∀ j < m, Memory.read t.buf (D + j) = Memory.read s.buf (L.srcAddr.toNat + j) := fun j hj => by
    rw [hread, if_neg (by omega), if_neg (by omega), if_pos (by omega), Nat.add_sub_cancel_left]
  refine ⟨t, hexec, hdone, hkeep, fun x hx => ?_, hmeta, ?_, fun j hj => ?_, fun j hj => ?_⟩
  · rw [hread, if_neg (by omega), if_neg (by omega), if_neg (by omega)]
  · rw [hread, if_neg (by omega), if_pos rfl]
  · rw [hread, if_pos (by omega), Nat.add_sub_cancel_left]
  · rw [hmeta j hj]; exact hno j hj

/-! ## PSPLIT (R184) -/

/-- The separator is the first 0x0A of the payload (R184). -/
theorem separatorIndex_eq_some_iff (m : Memory) (A n k : Nat) :
    separatorIndex m A n = some k ↔
      k < n ∧ Memory.read m (A + k) = 0x0A#8 ∧ ∀ j < k, Memory.read m (A + j) ≠ 0x0A#8 := by
  simp [separatorIndex, sentinelByte, List.find?_range_eq_some, and_left_comm]

/-- PSPLIT of a payload whose first 0x0A is at offset `k` completes with both lengths and writes no BUF byte (R184). -/
theorem exec_psplit_completes {s : State} {L : Latch} {k : Nat} (hL : s.latch = some L) (hp : s.params.Legal)
    (hc : ChecksPass .psplit L s.params.bufBytes) (hk : separatorIndex s.buf L.srcAddr.toNat L.srcLen.toNat = some k) :
    ∃ t, exec .psplit s = .next t ∧ CompletedWith s t k (L.srcLen.toNat - k - 1) 0xFFFFFFFF#32 false ∧
      KeepsRest s t ∧ t.buf = s.buf := by
  have hb : bodyOf .psplit L s.buf =
      .ok { writes := [], len := k, aux := L.srcLen.toNat - k - 1, first := noMism, mism := false } := by
    simp [bodyOf, bodyPsplit, hk]
  exact exec_completedWith hL hp hc hb

/-- PSPLIT's checks are that its payload lies in BUF (40_command_lifecycle.md R120). -/
theorem psplit_checksPass_iff (L : Latch) (bufBytes : Nat) :
    ChecksPass .psplit L bufBytes ↔ L.srcAddr.toNat + L.srcLen.toNat ≤ bufBytes := by
  simp [ChecksPass, usesGeometry, allInBuf_iff, OperandRanges.inOrder, OperandRanges.overlapping, OperandRanges.dests,
    operandRanges]

/-! ## The payload round trip (R186) -/

/-- A command that ends without an error has a body that succeeded (40_command_lifecycle.md R118, R122). -/
theorem body_succeeds_of_exec_ok {i : Instr} {s t : State} {L : Latch} (hL : s.latch = some L)
    (h : exec i s = .next t) (hok : t.regs.status.err = false) : ∃ r, bodyOf i L s.buf = .ok r := by
  obtain ⟨L', hL', ⟨r, -, hb, -⟩ | ⟨c, -, rfl⟩⟩ := exec_next h
  · obtain rfl : L = L' := Option.some.inj (hL.symm.trans hL')
    exact ⟨r, hb⟩
  · cases hok

/-- PFRAME's destination lies in BUF when its checks pass (40_command_lifecycle.md R120). -/
theorem pframe_dst_inBuf {L : Latch} {bufBytes : Nat} (hc : ChecksPass .pframe L bufBytes) :
    L.dstAddr.toNat + (L.srcLen.toNat + 1 + L.src2Len.toNat) ≤ bufBytes := by
  obtain ⟨-, hin, -⟩ := hc
  exact (allInBuf_iff _ _).1 hin ⟨L.dstAddr.toNat, L.srcLen.toNat + 1 + L.src2Len.toNat⟩
    (by simp [operandRanges, OperandRanges.inOrder])

/-- Settles O46: PFRAME succeeded, so its payload lies in BUF and its first 0x0A is at the metadata's length, where PSPLIT
finds it. -/
theorem payloadRoundTrip : Obligations.PayloadRoundTrip := by
  intro s t u L K hp hm hL hexec hok hparams hbuf hK hsrc hlen
  have hc := checksPass_of_exec_ok hL hexec hok
  have hno := (bodyPframe_succeeds_iff L s.buf).1 (body_succeeds_of_exec_ok hL hexec hok)
  obtain ⟨t', hexec', ⟨-, hresult, -⟩, -, -, hmeta, hsep, harchive, hfirst⟩ :=
    pframeResult s L _ _ _ _ _ hL hp hm rfl rfl rfl rfl rfl hc hno
  obtain rfl : t = t' := by rw [hexec] at hexec'; injection hexec'
  rw [← hlen] at hresult
  rw [← hbuf, ← hsrc] at hmeta hsep harchive hfirst
  have hcK : ChecksPass .psplit K u.params.bufBytes := by
    rw [psplit_checksPass_iff, hsrc, hresult, hparams]
    exact pframe_dst_inBuf hc
  have hk : separatorIndex u.buf K.srcAddr.toNat K.srcLen.toNat = some L.srcLen.toNat :=
    (separatorIndex_eq_some_iff ..).2 ⟨by omega, hsep, hfirst⟩
  obtain ⟨v, hv, hdone, -, hsame⟩ := exec_psplit_completes hK (hparams ▸ hp) hcK hk
  rw [show K.srcLen.toNat - L.srcLen.toNat - 1 = L.src2Len.toNat by omega] at hdone
  rw [← hsame] at hmeta harchive
  exact ⟨v, hv, hdone, hmeta, harchive⟩

end Sys2Proof.Machine
end

section
/-! PROOFS. Exceptions (60_exceptions.md): the error code with which a command ends, the checks in their order, each one
spelled out row by row, and the errors that PFRAME and PSPLIT raise themselves. -/

namespace Sys2Proof.Machine

/-! ## The error code of a result (R200, R201) -/

/-- The ERRCODE that a result leaves: its error, or NONE for a success. -/
def errorOf : Except ErrCode CmdResult → ErrCode
  | .ok _ => .none
  | .error c => c

@[simp] theorem errorOf_ok (r : CmdResult) : errorOf (.ok r) = .none := rfl
@[simp] theorem errorOf_error (c : ErrCode) : errorOf (.error c) = c := rfl

/-- The end of a command leaves its result's error in ERRCODE. -/
@[simp] theorem settle_errCode (r : Except ErrCode CmdResult) (s : State) :
    (settle r s).regs.status.errCode = errorOf r := by
  cases r <;> rfl

/-- A command that ends with an error code has failed with it. -/
theorem settle_failedWith {r : Except ErrCode CmdResult} {s : State} {c : ErrCode} (hc : c ≠ .none)
    (h : (settle r s).regs.status.errCode = c) : FailedWith s (settle r s) c := by
  rw [settle_errCode] at h
  cases r with
  | ok res => exact absurd h.symm hc
  | error d => obtain rfl : d = c := h; exact failWith_failedWith d s

/-- A body raises none of the errors of the common checks (R210). -/
theorem errorOf_bodyOf (i : Instr) (L : Latch) (m : Memory) :
    errorOf (bodyOf i L m) = .none ∨ errorOf (bodyOf i L m) = .sentinel ∨ errorOf (bodyOf i L m) = .framing := by
  rcases h : bodyOf i L m with c | r
  · rcases bodyOf_error h with ⟨-, rfl, -⟩ | ⟨-, rfl, -⟩ <;> simp
  · exact .inl rfl

/-! ## The common checks, row by row (R203 to R205) -/

/-- RENDER and EXTRACT are the commands that use the geometry (40_command_lifecycle.md R119). -/
theorem usesGeometry_iff (i : Instr) : usesGeometry i = true ↔ i = .render ∨ i = .extract := by
  cases i <;> simp [usesGeometry]

/-- The command uses the geometry, and the latched one is illegal (R203). -/
def BadGeometry (i : Instr) (L : Latch) : Prop :=
  usesGeometry i = true ∧ ¬ GeometryLegal L.width L.height L.block

/-- Some operand range of the command's row of 40_command_lifecycle.md R120 ends past a BUF of `B` bytes (R204). -/
def EndsPastBuf (L : Latch) (B : Nat) : Instr → Prop
  | .nop => False
  | .bframe => B < L.srcAddr.toNat + L.srcLen.toNat ∨ B < L.dstAddr.toNat + 2 * L.srcLen.toNat
  | .bdeframe => B < L.srcAddr.toNat + (L.srcLen.toNat + 7) / 8 ∨ B < L.dstAddr.toNat + L.srcLen.toNat / 16
  | .bdeframeS =>
    B < L.srcAddr.toNat + (L.srcLen.toNat + 7) / 8 ∨ B < L.dstAddr.toNat + L.srcLen.toNat / 16 ∨
      B < L.dst2Addr.toNat + (L.srcLen.toNat / 16 + 7) / 8
  | .render => B < L.srcAddr.toNat + (L.srcLen.toNat + 7) / 8 ∨ B < L.dstAddr.toNat + L.width * L.height
  | .extract => B < L.srcAddr.toNat + L.width * L.height ∨ B < L.extractStart + L.extractLen
  | .pframe =>
    B < L.srcAddr.toNat + L.srcLen.toNat ∨ B < L.src2Addr.toNat + L.src2Len.toNat ∨
      B < L.dstAddr.toNat + (L.srcLen.toNat + 1 + L.src2Len.toNat)
  | .psplit => B < L.srcAddr.toNat + L.srcLen.toNat

/-- Some destination of the command's row of 40_command_lifecycle.md R120 is in relation `R` to a source or to the other
destination; `R` is `Overlap` or `SharesByte` (R205). -/
def DestMeets (R : Nat → Nat → Nat → Nat → Prop) (L : Latch) : Instr → Prop
  | .nop => False
  | .bframe => R L.dstAddr.toNat (2 * L.srcLen.toNat) L.srcAddr.toNat L.srcLen.toNat
  | .bdeframe => R L.dstAddr.toNat (L.srcLen.toNat / 16) L.srcAddr.toNat ((L.srcLen.toNat + 7) / 8)
  | .bdeframeS =>
    R L.dstAddr.toNat (L.srcLen.toNat / 16) L.srcAddr.toNat ((L.srcLen.toNat + 7) / 8) ∨
      R L.dst2Addr.toNat ((L.srcLen.toNat / 16 + 7) / 8) L.srcAddr.toNat ((L.srcLen.toNat + 7) / 8) ∨
      R L.dstAddr.toNat (L.srcLen.toNat / 16) L.dst2Addr.toNat ((L.srcLen.toNat / 16 + 7) / 8)
  | .render => R L.dstAddr.toNat (L.width * L.height) L.srcAddr.toNat ((L.srcLen.toNat + 7) / 8)
  | .extract => R L.extractStart L.extractLen L.srcAddr.toNat (L.width * L.height)
  | .pframe =>
    R L.dstAddr.toNat (L.srcLen.toNat + 1 + L.src2Len.toNat) L.srcAddr.toNat L.srcLen.toNat ∨
      R L.dstAddr.toNat (L.srcLen.toNat + 1 + L.src2Len.toNat) L.src2Addr.toNat L.src2Len.toNat
  | .psplit => False

/-- The latched geometry passes its check exactly when it is legal (40_command_lifecycle.md R119). -/
theorem geometryOk_iff (L : Latch) : L.geometryOk = true ↔ GeometryLegal L.width L.height L.block :=
  geometryLegal_iff ..

/-- The range check fails exactly when some range ends past BUF. -/
theorem allInBuf_eq_false_iff (o : OperandRanges) (B : Nat) :
    o.allInBuf B = false ↔ ∃ r ∈ o.inOrder, B < r.start + r.len := by
  simp [← Bool.not_eq_true, allInBuf_iff]

/-- The range check of a command fails exactly when a range of its row ends past BUF (R204). -/
theorem operandRanges_allInBuf_eq_false_iff (i : Instr) (L : Latch) (B : Nat) :
    (operandRanges i L).allInBuf B = false ↔ EndsPastBuf L B i := by
  rw [allInBuf_eq_false_iff]
  cases i <;> simp [OperandRanges.inOrder, operandRanges, EndsPastBuf, ceilDiv]

/-- The check of two ranges is `Overlap` (40_command_lifecycle.md R121). -/
theorem overlaps_iff (r q : BufRange) : r.overlaps q = true ↔ Overlap r.start r.len q.start q.len := by
  simp [BufRange.overlaps, and_assoc]

/-- The overlap check fails exactly when a destination of the row overlaps a source or the other destination (R205). -/
theorem operandRanges_overlapping_iff (i : Instr) (L : Latch) :
    (operandRanges i L).overlapping = true ↔ DestMeets Overlap L i := by
  cases i <;>
    simp [OperandRanges.overlapping, OperandRanges.dests, OperandRanges.sources, operandRanges, overlaps_iff, DestMeets,
      ceilDiv, or_assoc]

/-- Two ranges overlap exactly when they share a byte (40_command_lifecycle.md R121). -/
theorem overlap_eq_sharesByte : Overlap = SharesByte := by
  funext A n B m
  refine propext ⟨fun ⟨hn, hm, hAB, hBA⟩ => ⟨max A B, ?_⟩, fun ⟨x, hx⟩ => ?_⟩ <;> omega

/-! ## The first error that applies (R210) -/

/-- The error of Exec is that of the first check that fails, or else the body's own. -/
theorem errorOf_execResult_cases (i : Instr) (L : Latch) (B : Nat) (m : Memory) :
    (BadGeometry i L ∧ errorOf (execResult i (bodyOf i) L B m) = .badConfig) ∨
    (¬ BadGeometry i L ∧ EndsPastBuf L B i ∧ errorOf (execResult i (bodyOf i) L B m) = .range) ∨
    (¬ BadGeometry i L ∧ ¬ EndsPastBuf L B i ∧ DestMeets Overlap L i ∧
      errorOf (execResult i (bodyOf i) L B m) = .overlap) ∨
    (¬ BadGeometry i L ∧ ¬ EndsPastBuf L B i ∧ ¬ DestMeets Overlap L i ∧
      errorOf (execResult i (bodyOf i) L B m) = errorOf (bodyOf i L m)) := by
  simp only [BadGeometry, ← geometryOk_iff, ← operandRanges_allInBuf_eq_false_iff, ← operandRanges_overlapping_iff,
    not_and, Bool.not_eq_true, Bool.not_eq_false]
  rcases commonChecks_cases i L B with ⟨h, hu, hg⟩ | ⟨h, hg, hr⟩ | ⟨h, hg, hr, ho⟩ | ⟨-, hg, hr, ho⟩
  · exact .inl ⟨⟨hu, hg⟩, by rw [execResult_fail h]; rfl⟩
  · exact .inr (.inl ⟨hg, hr, by rw [execResult_fail h]; rfl⟩)
  · exact .inr (.inr (.inl ⟨hg, hr, ho, by rw [execResult_fail h]; rfl⟩))
  · exact .inr (.inr (.inr ⟨hg, hr, ho, by rw [execResult_pass ⟨hg, hr, ho⟩]⟩))

/-- The error of Exec as a chain of conditions that are equivalent to the three checks. -/
theorem errorOf_execResult_eq_ite {i : Instr} {L : Latch} {B : Nat} {m : Memory} {G R O : Prop} [Decidable G]
    [Decidable R] [Decidable O] {e : ErrCode} (hG : G ↔ BadGeometry i L) (hR : R ↔ EndsPastBuf L B i)
    (hO : O ↔ DestMeets Overlap L i) (he : errorOf (bodyOf i L m) = e) :
    errorOf (execResult i (bodyOf i) L B m) =
      if G then .badConfig else if R then .range else if O then .overlap else e := by
  rcases errorOf_execResult_cases i L B m with ⟨g, h⟩ | ⟨g, r, h⟩ | ⟨g, r, o, h⟩ | ⟨g, r, o, h⟩
  · rw [h, if_pos (hG.2 g)]
  · rw [h, if_neg (mt hG.1 g), if_pos (hR.2 r)]
  · rw [h, if_neg (mt hG.1 g), if_neg (mt hR.1 r), if_pos (hO.2 o)]
  · rw [h, if_neg (mt hG.1 g), if_neg (mt hR.1 r), if_neg (mt hO.1 o), he]

/-- The error of a command that does not use the geometry: the chain begins with the range check. -/
theorem errorOf_execResult_eq_ite_of_no_geometry {i : Instr} {L : Latch} {B : Nat} {m : Memory} {R O : Prop}
    [Decidable R] [Decidable O] {e : ErrCode} (hu : usesGeometry i = false) (hR : R ↔ EndsPastBuf L B i)
    (hO : O ↔ DestMeets Overlap L i) (he : errorOf (bodyOf i L m) = e) :
    errorOf (execResult i (bodyOf i) L B m) = if R then .range else if O then .overlap else e :=
  (errorOf_execResult_eq_ite (G := False) (by simp [BadGeometry, hu]) hR hO he).trans (if_neg id)

/-- The error of a command that uses the geometry: the chain begins with its check. -/
theorem errorOf_execResult_eq_ite_of_geometry {i : Instr} {L : Latch} {B : Nat} {m : Memory} {R O : Prop}
    [Decidable R] [Decidable O] {e : ErrCode} (hu : usesGeometry i = true) (hR : R ↔ EndsPastBuf L B i)
    (hO : O ↔ DestMeets Overlap L i) (he : errorOf (bodyOf i L m) = e) :
    errorOf (execResult i (bodyOf i) L B m) =
      if ¬ GeometryLegal L.width L.height L.block then .badConfig
      else if R then .range else if O then .overlap else e :=
  errorOf_execResult_eq_ite (and_iff_right hu).symm hR hO he

/-- BAD_CONFIG is raised exactly on a bad geometry (R203). -/
theorem errorOf_eq_badConfig_iff (i : Instr) (L : Latch) (B : Nat) (m : Memory) :
    errorOf (execResult i (bodyOf i) L B m) = .badConfig ↔ BadGeometry i L := by
  rcases errorOf_execResult_cases i L B m with ⟨g, h⟩ | ⟨g, -, h⟩ | ⟨g, -, -, h⟩ | ⟨g, -, -, h⟩
  · simp [g, h]
  · simp [g, h]
  · simp [g, h]
  · rcases errorOf_bodyOf i L m with hb | hb | hb <;> simp [g, h, hb]

/-- Without a bad geometry RANGE is raised exactly when a range ends past BUF (R204). -/
theorem errorOf_eq_range_iff {i : Instr} {L : Latch} (hg : ¬ BadGeometry i L) (B : Nat) (m : Memory) :
    errorOf (execResult i (bodyOf i) L B m) = .range ↔ EndsPastBuf L B i := by
  rcases errorOf_execResult_cases i L B m with ⟨g, -⟩ | ⟨-, r, h⟩ | ⟨-, r, -, h⟩ | ⟨-, r, -, h⟩
  · exact absurd g hg
  · simp [r, h]
  · simp [r, h]
  · rcases errorOf_bodyOf i L m with hb | hb | hb <;> simp [r, h, hb]

/-- Without a bad geometry OVERLAP is raised exactly when RANGE is not and a destination shares a byte (R205). -/
theorem errorOf_eq_overlap_iff {i : Instr} {L : Latch} (hg : ¬ BadGeometry i L) (B : Nat) (m : Memory) :
    errorOf (execResult i (bodyOf i) L B m) = .overlap ↔
      errorOf (execResult i (bodyOf i) L B m) ≠ .range ∧ DestMeets SharesByte L i := by
  rw [← overlap_eq_sharesByte]
  rcases errorOf_execResult_cases i L B m with ⟨g, -⟩ | ⟨-, -, h⟩ | ⟨-, -, o, h⟩ | ⟨-, -, o, h⟩
  · exact absurd g hg
  · simp [h]
  · simp [o, h]
  · rcases errorOf_bodyOf i L m with hb | hb | hb <;> simp [o, h, hb]

/-- A command whose geometry is legal if it uses one has no bad geometry. -/
theorem not_badGeometry {i : Instr} {L : Latch}
    (h : i = .render ∨ i = .extract → GeometryLegal L.width L.height L.block) : ¬ BadGeometry i L :=
  fun ⟨hu, hg⟩ => hg (h ((usesGeometry_iff i).1 hu))

/-- An illegal geometry in terms of the latched fields (R203). -/
theorem not_geometryLegal_iff (L : Latch) :
    ¬ GeometryLegal L.width L.height L.block ↔
      L.blockSize = 0 ∨ L.frameW = 0 ∨ L.frameH = 0 ∨ L.frameW.toNat % L.blockSize.toNat ≠ 0 ∨
        L.frameH.toNat % L.blockSize.toNat ≠ 0 := by
  simp only [GeometryLegal, Latch.width, Latch.height, Latch.block, ← BitVec.toNat_inj]
  simp only [BitVec.ofNat_eq_ofNat, BitVec.toNat_ofNat, Nat.zero_mod]
  omega

/-- Settles O27: BAD_CONFIG is the geometry check's error alone, and that check is made for RENDER and EXTRACT alone. -/
theorem badConfigExactlyIllegalGeometry : Obligations.BadConfigExactlyIllegalGeometry := by
  refine ⟨fun i s L hi hL => ⟨_, exec_latched hL, ?_, settle_failedWith nofun⟩, fun i s t hr he h => ?_⟩
  · rw [settle_errCode, errorOf_eq_badConfig_iff, BadGeometry, ← not_geometryLegal_iff, usesGeometry_iff]
    exact and_iff_right hi
  · obtain ⟨L, hL, -⟩ := exec_next h
    rw [exec_latched hL] at h
    injection h with h
    rw [← h, settle_errCode, ne_eq, errorOf_eq_badConfig_iff, BadGeometry, usesGeometry_iff]
    exact fun ⟨hu, _⟩ => hu.elim hr he

/-- Settles O28: the range check compares each row of the table with BUF's size. -/
theorem rangeExactlyOutsideBuf : Obligations.RangeExactlyOutsideBuf := by
  rintro i s L S S2 D D2 n a W H BS k bpf B hL rfl rfl rfl rfl rfl rfl rfl rfl rfl rfl rfl rfl hgeom
  refine ⟨_, exec_latched hL, settle_failedWith nofun, ?_⟩
  have hrange := errorOf_eq_range_iff (not_badGeometry hgeom) s.params.bufBytes s.buf
  rw [settle_errCode, hrange]
  cases i <;> rfl

/-- Settles O29: two ranges overlap exactly when they share a byte, and the overlap check follows the range check. -/
theorem overlapExactlySharedByte : Obligations.OverlapExactlySharedByte := by
  rintro i s L S S2 D D2 n a W H BS k bpf B hL rfl rfl rfl rfl rfl rfl rfl rfl rfl rfl rfl rfl hgeom
  refine ⟨_, exec_latched hL, settle_failedWith nofun, ?_⟩
  have hoverlap := errorOf_eq_overlap_iff (not_badGeometry hgeom) s.params.bufBytes s.buf
  rw [settle_errCode]
  cases i <;> exact hoverlap

/-! ## Illegal words (R202) -/

/-- OP and S select a command unless OP is reserved or S stands with an OP other than 2 (30_encoding.md R93, R94). -/
theorem decodeOp_isOk_iff (op : BitVec 4) (strict : Bool) :
    (decodeOp op strict).isOk = true ↔ ¬ (7 ≤ op.toNat ∨ (strict = true ∧ op ≠ 2#4)) := by
  revert op strict
  decide

/-- A word decodes to a command unless it has one of the three causes of R202. -/
theorem decode_isOk_iff (w : Word) :
    (decode w).isOk = true ↔ ¬ (7 ≤ (w.extractLsb' 0 4).toNat ∨ (w.getLsbD 4 = true ∧ w.extractLsb' 0 4 ≠ 2#4) ∨
      w.extractLsb' 5 27 ≠ 0#27) := by
  by_cases hrsv : w.extractLsb' 5 27 = 0#27
  · simp [decode, fieldsOf, hrsv, decodeOp_isOk_iff]
  · simp [decode, fieldsOf, hrsv, Except.isOk, Except.toBool]

/-- The engine's turn on a word that decodes to no command fails with ILLEGAL_CMD. -/
theorem engineTurn_illegal {s : State} {L : Latch} {e : DecodeError} (hL : s.latch = some L)
    (he : decode L.cmd = .error e) : engineTurn s = .next (failWith .illegalCmd s) := by
  simp [engineTurn, hL, he]

/-- Settles O3: the decoder rejects a word for one of the three causes exactly. -/
theorem illegalWordFails : Obligations.IllegalWordFails := by
  intro s L hL
  have hok := decode_isOk_iff L.cmd
  rcases hd : decode L.cmd with e | i <;> rw [hd] at hok
  · refine ⟨fun _ => ⟨_, engineTurn_illegal hL hd, failWith_failedWith _ s, settle_keepsRest (.error _) s⟩, fun h => ?_⟩
    cases hok.2 h
  · exact ⟨fun h => absurd h (hok.1 rfl), fun _ => ⟨i, rfl⟩⟩

/-! ## The errors of PFRAME and PSPLIT (R206, R207) -/

/-- Some metadata byte is the separator. -/
theorem holdsSentinel_iff (m : Memory) (A n : Nat) :
    holdsSentinel m A n = true ↔ ∃ j < n, Memory.read m (A + j) = 0x0A#8 := by
  simp [holdsSentinel, sentinelByte]

/-- PFRAME's body raises SENTINEL exactly on metadata with the separator (R206). -/
theorem bodyPframe_sentinel {L : Latch} {m : Memory}
    (h : ∃ j < L.srcLen.toNat, Memory.read m (L.srcAddr.toNat + j) = 0x0A#8) : bodyPframe L m = .error .sentinel := by
  rw [← holdsSentinel_iff] at h
  simp [bodyPframe, h]

/-- No payload byte is the separator. -/
theorem separatorIndex_eq_none_iff (m : Memory) (A n : Nat) :
    separatorIndex m A n = none ↔ ∀ j < n, Memory.read m (A + j) ≠ 0x0A#8 := by
  simp [separatorIndex, sentinelByte]

/-- PSPLIT's body raises FRAMING on a payload without the separator (R207). -/
theorem bodyPsplit_framing {L : Latch} {m : Memory}
    (h : ∀ j < L.srcLen.toNat, Memory.read m (L.srcAddr.toNat + j) ≠ 0x0A#8) : bodyPsplit L m = .error .framing := by
  rw [← separatorIndex_eq_none_iff] at h
  simp [bodyPsplit, h]

/-- The error of PFRAME's body. -/
theorem errorOf_bodyPframe (L : Latch) (m : Memory)
    [Decidable (∃ j < L.srcLen.toNat, Memory.read m (L.srcAddr.toNat + j) = 0x0A#8)] :
    errorOf (bodyOf .pframe L m) =
      if ∃ j < L.srcLen.toNat, Memory.read m (L.srcAddr.toNat + j) = 0x0A#8 then .sentinel else .none := by
  split
  · rename_i h; rw [bodyOf, bodyPframe_sentinel h]; rfl
  · rename_i h
    obtain ⟨r, hr⟩ := (bodyPframe_succeeds_iff L m).2 (by simpa using h)
    rw [bodyOf, hr]; rfl

/-- The error of PSPLIT's body. -/
theorem errorOf_bodyPsplit (L : Latch) (m : Memory)
    [Decidable (∀ j < L.srcLen.toNat, Memory.read m (L.srcAddr.toNat + j) ≠ 0x0A#8)] :
    errorOf (bodyOf .psplit L m) =
      if ∀ j < L.srcLen.toNat, Memory.read m (L.srcAddr.toNat + j) ≠ 0x0A#8 then .framing else .none := by
  split
  · rename_i h; rw [bodyOf, bodyPsplit_framing h]; rfl
  · rename_i h
    rw [← separatorIndex_eq_none_iff] at h
    obtain ⟨k, hk⟩ := Option.ne_none_iff_exists'.1 h
    simp [bodyOf, bodyPsplit, hk]

/-- Settles O44: the checks pass and the body raises SENTINEL. -/
theorem pframeRejectsSentinel : Obligations.PframeRejectsSentinel := by
  intro s L j hL hc hj hsep
  exact ⟨_, exec_body_fails hL hc (bodyPframe_sentinel ⟨j, hj, hsep⟩), failWith_failedWith _ s,
    settle_keepsRest (.error _) s⟩

/-- Settles O45: the separator is the first 0x0A, and without one the body raises FRAMING. -/
theorem psplitResult : Obligations.PsplitResult := by
  rintro s L S n hL hp rfl rfl hc
  refine ⟨fun k hk hsep hfirst => ?_, fun hnone => ?_⟩
  · exact exec_psplit_completes hL hp hc ((separatorIndex_eq_some_iff ..).2 ⟨hk, hsep, hfirst⟩)
  · exact ⟨_, exec_body_fails hL hc (bodyPsplit_framing hnone), failWith_failedWith _ s, settle_keepsRest (.error _) s⟩

/-! ## The priority of the errors (R210) -/

/-- The result of a latched word that is no command. -/
theorem latchResult_illegal {L : Latch} (h : ∀ i, decode L.cmd ≠ .ok i) (B : Nat) (m : Memory) :
    latchResult L B m = .error .illegalCmd := by
  rcases hd : decode L.cmd with e | i
  · simp [latchResult, hd]
  · exact absurd hd (h i)

/-- The result of a latched command. -/
theorem latchResult_decoded {L : Latch} {i : Instr} (h : decode L.cmd = .ok i) (B : Nat) (m : Memory) :
    latchResult L B m = execResult i (bodyOf i) L B m := by
  simp [latchResult, h]

/-- Settles O30: the checks come in the order of R210, row by row of R120's table, and PFRAME's and PSPLIT's own errors
last. -/
theorem errorPriority : Obligations.ErrorPriority := by
  rintro s L S S2 D D2 n a W H BS k bpf B hL rfl rfl rfl rfl rfl rfl rfl rfl rfl rfl rfl rfl
  refine ⟨_, engineTurn_latched hL, fun hno => ?_, fun i hi => ?_⟩
  · rw [settle_errCode, latchResult_illegal hno]; rfl
  rw [settle_errCode, latchResult_decoded hi]
  cases i
  case nop => rw [execResult_pass (nop_checksPass L _)]; rfl
  case bframe | bdeframe | bdeframeS => refine errorOf_execResult_eq_ite_of_no_geometry rfl ?_ ?_ rfl <;> rfl
  case render | extract => refine errorOf_execResult_eq_ite_of_geometry rfl ?_ ?_ rfl <;> rfl
  case pframe => refine errorOf_execResult_eq_ite_of_no_geometry rfl ?_ ?_ (errorOf_bodyPframe L s.buf) <;> rfl
  case psplit =>
    have hchain := errorOf_execResult_eq_ite_of_no_geometry (i := .psplit) (O := False) rfl
      (R := s.params.bufBytes < L.srcAddr.toNat + L.srcLen.toNat) .rfl .rfl (errorOf_bodyPsplit L s.buf)
    rwa [if_neg id] at hchain

/-! ## The idle block (R220, 70_reset_and_hazards.md R249) -/

/-- With no command latched the engine's turn passes (notes/assumptions/12.md). -/
theorem engineTurn_idle {s : State} (hL : s.latch = none) : engineTurn s = .next s := by
  simp [engineTurn, hL]

/-- Past the last statement of its program the host's turn passes (30_encoding.md R98, notes/assumptions/12.md). -/
theorem hostTurn_past_end {s : State} (hf : s.fault = none) (hp : s.host.prog.length ≤ s.host.pos) :
    hostTurn s = .next s := by
  simp [hostTurn, hf, List.getElem?_eq_none hp]

/-- Settles O53: the turn that the end of a run leaves is the host's, past its program. -/
theorem idleBlockKeepsState : Obligations.IdleBlockKeepsState := by
  refine ⟨fun s => engineTurn_idle, fun s hL hs ⟨hend, _, hf⟩ => ?_⟩
  rw [step_eq, mover_host hs hL, popped_of_sched_nil hs]
  exact hostTurn_past_end hf hend

end Sys2Proof.Machine
end

section
/-! PROOFS. Reset and hazards (70_reset_and_hazards.md): what power-on reset and a reset during a run leave, the hazard of
a BUF access while BUSY = 1, and what stays while a command runs. -/

namespace Sys2Proof.Machine

/-! ## Power-on reset (R230) -/

/-- The reset geometry is illegal, so it counts no block. -/
theorem bpfOf_reset : bpfOf Regs.reset = 0 := by decide

/-- Settles O6: the constants read as in every state, BPF and STATUS by what they are computed from, and every other
register is a field of `Regs.reset`. -/
theorem launchStateValues : Obligations.LaunchStateValues := by
  intro p m hp
  obtain ⟨hid, hbufsz, hecb, -⟩ := hardwiredRegisters (State.launch p m) 0 hp
  have hbpf : readSlot 0x18 (State.launch p m) = 0 := congrArg (BitVec.ofNat 32) bpfOf_reset
  have hstatus : readSlot 0x20 (State.launch p m) = 0 := reset_status_toWord
  exact ⟨hid, hbufsz, rfl, rfl, rfl, hecb, hbpf, rfl, hstatus, rfl, rfl, rfl, rfl, rfl, rfl, rfl, rfl, rfl, rfl, rfl,
    rfl, rfl⟩

/-- A launch state with legal parameters and a well-formed BUF meets the invariant: its latch is empty and all its flags
are 0. -/
theorem launch_inv {p : Params} {m : Memory} (hp : p.Legal) (hwf : Memory.wf m) (hin : Memory.within p.bufBytes m) :
    (State.launch p m).Inv :=
  ⟨hp, ⟨hwf, hin⟩, by simp [State.LatchOk, Regs.reset], by simp [State.FlagsOk, Regs.reset]⟩

/-- Settles O49: the model's reset state is a launch state too. -/
theorem resetMeetsInvariant : Obligations.ResetMeetsInvariant :=
  ⟨launch_inv (by decide) Memory.wf_nil (by simp), fun _ _ => launch_inv⟩

/-! ## A reset during a run (R231) -/

/-- A step in which a reset moves is its turn. -/
theorem step_of_mover_reset {s : State} (hm : s.mover = .reset) : step s = .next (resetTurn s.popped) := by
  rw [step_eq, hm]; rfl

/-- The bytes that a reset draws, in the words of R231: those of BUF in a destination range of the latched command. -/
theorem mem_resetAddrs_iff {s : State} {a : Nat} :
    a ∈ resetAddrs s ↔ ∃ L i r, s.latch = some L ∧ decode L.cmd = .ok i ∧ r ∈ (operandRanges i L).dests ∧
      r.start ≤ a ∧ a < r.start + r.len ∧ a < s.params.bufBytes := by
  unfold resetAddrs
  cases s.latch with
  | none => simp
  | some L =>
    rw [mem_cutShortAddrs]
    constructor
    · rintro ⟨hlt, i, hi, r, hr, hlo, hhi⟩
      exact ⟨L, i, r, rfl, hi, hr, hlo, hhi, hlt⟩
    · rintro ⟨_, i, r, hL, hi, hr, hlo, hhi, hlt⟩
      cases hL
      exact ⟨hlt, i, hi, r, hr, hlo, hhi⟩

/-- A byte that a reset draws reads as one of the free bytes that its turn takes. -/
theorem read_resetTurn_drawn {s : State} {a : Nat} (hwf : Memory.wf s.buf) (ha : a ∈ resetAddrs s) :
    ∃ k, s.draws ≤ k ∧ k < (resetTurn s).draws ∧ Memory.read (resetTurn s).buf a = Config.freeByte k := by
  obtain ⟨j, hj⟩ := List.mem_iff_getElem?.1 ha
  obtain ⟨c, hc, rfl, hread⟩ := Memory.read_writeAll_exists hwf
    ⟨(a, Config.freeByte (s.draws + j)), mem_drawBytes.2 ⟨j, hj, rfl⟩, rfl⟩
  obtain ⟨k, hk, hbyte⟩ := mem_drawBytes.1 hc
  obtain ⟨hlt, -⟩ := List.getElem?_eq_some_iff.1 hk
  refine ⟨s.draws + k, by omega, ?_, ?_⟩
  · rw [resetTurn_draws]; omega
  · rw [resetTurn_buf, hread, hbyte]

/-- A byte that a reset does not draw keeps its value. -/
theorem read_resetTurn_kept {s : State} {a : Nat} (ha : a ∉ resetAddrs s) :
    Memory.read (resetTurn s).buf a = Memory.read s.buf a := by
  rw [resetTurn_buf]
  refine Memory.read_writeAll_other ?_
  rintro c hc rfl
  obtain ⟨k, hk, -⟩ := mem_drawBytes.1 hc
  exact ha (List.mem_of_getElem? hk)

/-- Settles O7: the bytes that the reset draws are those that the statement describes. -/
theorem resetDuringRun : Obligations.ResetDuringRun := by
  intro s hwf hm
  exact ⟨resetTurn s.popped, step_of_mover_reset hm, rfl, rfl, rfl, rfl, rfl,
    fun a ha => read_resetTurn_drawn (s := s.popped) hwf (mem_resetAddrs_iff.2 ha),
    fun a ha => read_resetTurn_kept (s := s.popped) (mt mem_resetAddrs_iff.1 ha)⟩

/-! ## The hazard BufWhileBusy (R240) -/

/-- A host byte write to a BUF byte while BUSY = 1 records the hazard. -/
theorem hostWrite_buf_busy {s : State} {a : Nat} (hp : s.params.Legal) (hlt : a < s.params.bufBytes)
    (hb : s.regs.status.busy = true) (v : Word) :
    hostWrite .w8 (s.params.bufBase + a) v s = .next (recordHazard s) := by
  simp [hostWrite, busWrite, route_buf hp hlt, hb]

/-- A host byte read of a BUF byte while BUSY = 1 records the hazard. -/
theorem hostRead_buf_busy {s : State} {a : Nat} (hp : s.params.Legal) (hlt : a < s.params.bufBytes)
    (hb : s.regs.status.busy = true) (x : Nat) :
    hostRead .w8 (s.params.bufBase + a) x s = .next (recordHazard s) := by
  simp [hostRead, busRead, route_buf hp hlt, hb]

/-- Settles O21: both statements that write and both that read make the byte access, and a host's turn needs an empty
fault record. -/
theorem bufAccessWhileBusyFaults : Obligations.BufAccessWhileBusyFaults := by
  refine ⟨fun s a hp hb hlt htouch => ?_, fun s f hf => ⟨fun t ht => ?_, fun ⟨_, _, hnone⟩ => ?_⟩⟩
  · rcases htouch with ⟨o, hat | hat⟩ | ⟨x, hat | hat⟩
    · exact (hostTurn_of_hostAt hat).trans (hostWrite_buf_busy hp hlt hb _)
    · exact (hostTurn_of_hostAt hat).trans (hostWrite_buf_busy hp hlt hb _)
    · exact (hostTurn_of_hostAt hat).trans (hostRead_buf_busy hp hlt hb x)
    · exact (hostTurn_of_hostAt hat).trans (hostRead_buf_busy hp hlt hb x)
  · obtain ⟨hnone, -⟩ := hostTurn_next ht
    rw [hf] at hnone; cases hnone
  · rw [hf] at hnone; cases hnone

/-- A turn of the host leaves the parameters alone, and the fault record but for the hazard. -/
theorem hostTurn_params_fault {s u : State} (h : hostTurn s = .next u) :
    u.params = s.params ∧ (u.fault = s.fault ∨
      (s.regs.status.busy = true ∧ ∃ a, a < s.params.bufBytes ∧ s.hostTouchesBuf a)) := by
  rcases hostTurn_cases h with ⟨ha, rfl⟩ | ⟨off, v, -, rfl⟩ | ⟨a, v, -, -, rfl⟩ | ⟨hb, rfl, ha⟩
  · exact ⟨rfl, .inl rfl⟩
  · obtain ⟨hp, -, hf, -⟩ := writeSlot_frame off v s
    exact ⟨hp, .inl hf⟩
  · exact ⟨rfl, .inl rfl⟩
  · exact ⟨rfl, .inr ⟨hb, ha⟩⟩

/-- A turn of the engine leaves the parameters and the fault record alone. -/
theorem engineTurn_params_fault {s u : State} (h : engineTurn s = .next u) :
    u.params = s.params ∧ u.fault = s.fault := by
  rcases engineTurn_next h with ⟨-, rfl⟩ | ⟨L, -, ⟨i, r, -, -, -, rfl⟩ | ⟨c, -, rfl⟩⟩
  · exact ⟨rfl, rfl⟩
  · exact ⟨rfl, rfl⟩
  · exact ⟨rfl, rfl⟩

/-- Settles O50: of the three agents only the host records a fault, and it moves only while none is recorded. -/
theorem faultOnlyByHazardNeverCleared : Obligations.FaultOnlyByHazardNeverCleared := by
  intro s t h
  rcases step_next h with ⟨hm, h⟩ | ⟨-, h⟩ | ⟨-, rfl⟩
  · obtain ⟨hp, hf⟩ := hostTurn_params_fault h
    obtain ⟨hnone, -⟩ := hostTurn_next h
    refine ⟨hp, fun f hsome => ?_, fun hne => ⟨hm, hf.resolve_left hne⟩⟩
    exact absurd (hnone.symm.trans hsome) (by simp)
  · obtain ⟨hp, hf⟩ := engineTurn_params_fault h
    exact ⟨hp, fun _ => hf.trans, fun hne => absurd hf hne⟩
  · exact ⟨rfl, fun _ hsome => hsome, fun hne => absurd rfl hne⟩

/-! ## While a command runs (R242) -/

/-- While BUSY = 1 a turn of the host leaves BUF alone. -/
theorem hostTurn_buf_of_busy {s u : State} (hb : s.regs.status.busy = true) (h : hostTurn s = .next u) :
    u.buf = s.buf := by
  rcases hostTurn_cases h with ⟨ha, rfl⟩ | ⟨off, v, -, rfl⟩ | ⟨a, v, -, hidle, -⟩ | ⟨-, rfl, -⟩
  · rfl
  · obtain ⟨-, hbuf, -⟩ := writeSlot_frame off v s
    exact hbuf
  · rw [hb] at hidle; cases hidle
  · rfl

/-- A turn of the engine that leaves BUSY = 1 had no command to end, and passed. -/
theorem engineTurn_busy {s u : State} (h : engineTurn s = .next u) (hb : u.regs.status.busy = true) : u = s := by
  rcases engineTurn_next h with ⟨-, hu⟩ | ⟨L, -, ⟨i, r, -, -, -, rfl⟩ | ⟨c, -, rfl⟩⟩
  · exact hu
  · cases hb
  · cases hb

/-- Settles O52: a reset leaves BUSY = 0, and so does an engine that ends a command; the host writes neither the results
nor, while BUSY = 1, BUF. -/
theorem resultsHeldWhileBusy : Obligations.ResultsHeldWhileBusy := by
  intro s t h hb
  rcases step_next h with ⟨-, h⟩ | ⟨-, h⟩ | ⟨-, rfl⟩
  · obtain ⟨hlen, haux, hfirst⟩ := hostTurn_results h
    exact ⟨hlen, haux, hfirst, fun hbusy => hostTurn_buf_of_busy (s := s.popped) hbusy h⟩
  · obtain rfl := engineTurn_busy h hb
    exact ⟨rfl, rfl, rfl, fun _ => rfl⟩
  · cases hb

end Sys2Proof.Machine
end
